-- ==== Sys2Proof/Word.lean ====
section
/-! DEFINITION. The block's units of data (spec/00_scope.md R8, R11): bytes, 32-bit words, and the fixed-size
sequences the document names Block, State and Schedule. -/

namespace Sys2Proof

/-- A byte of a stream (R11, R57). -/
abbrev Byte := BitVec 8

/-- "an unsigned 32-bit integer; all arithmetic on words is modulo 2^32" (00_scope.md section 9). -/
abbrev Word := BitVec 32

/-- A Block: "exactly 64 bytes" (R8). -/
abbrev Block := Vector Byte 64

/-- Eight words: the document's State, the shape of `H`, `V` and `IV` (R20, R21, R26). -/
abbrev Words8 := Vector Word 8

/-- Sixty-four words: the document's Schedule, the shape of `W` and `K` (R22, R25). -/
abbrev Schedule := Vector Word 64

end Sys2Proof
end

