-- ==== Sys2Proof/Syntax.lean ====
section
/-! DEFINITION. The commands as terms: one constructor per row of spec/opcode_table.json (spec/30_encoding.md R77),
and the opcode names and formats its encoding uses (R72 to R76). -/

namespace Sys2Proof

/-- The 14 commands of SHACMD-1. A block operand is 64 bytes by its type (R75: "a block of another length cannot be
expressed"); a digest operand is a list, because `DEC` can carry a wrong length (R76). -/
inductive Instr where
  /-- `PAD L` (R121): `L` is the 64-bit length operand. -/
  | pad (len : BitVec 64)
  /-- `LDBLK b` (R131). -/
  | ldblk (b : Block)
  /-- `WSTEP` (R132). -/
  | wstep
  /-- `SCHED b` (R133). -/
  | sched (b : Block)
  /-- `CINIT` (R147). -/
  | cinit
  /-- `ROUND` (R148). -/
  | round
  /-- `CFIN` (R149). -/
  | cfin
  /-- `COMPRESS` (R150). -/
  | compress
  /-- `BLOCK b` (R151). -/
  | block (b : Block)
  /-- `ENC` (R173). -/
  | enc
  /-- `DEC d` (R172): the count byte is the length of `d`. -/
  | dec (d : List Byte)
  /-- `INIT` (R171). -/
  | init
  /-- `STAT` (R185). -/
  | stat
  /-- `RESET` (R186). -/
  | reset
  deriving DecidableEq, Repr

/-- The opcode a command opens with, by name (R77). -/
inductive Opcode where
  | pad | ldblk | wstep | sched | cinit | round | cfin | compress | block | enc | dec | init | stat | reset
  deriving DecidableEq, Repr

/-- The four command formats (R72). -/
inductive Format where
  /-- Opcode alone (R73). -/
  | f0
  /-- Opcode and an 8-byte length (R74). -/
  | fl
  /-- Opcode and a 64-byte block (R75). -/
  | fb
  /-- Opcode, a count byte `n`, and `n` bytes (R76). -/
  | fd
  deriving DecidableEq, Repr

end Sys2Proof
end

