-- ==== Sys2Proof/Machine/State.lean ====
section
/-! DEFINITION. The state of one copy of the block (spec/10_state.md), the spec's fault codes, and the reasons a step
of the model can stop. -/

namespace Sys2Proof.Machine

/-- Everything the spec gives one block, and the two fields of the model's own that INVENTORY.md names. -/
structure State where
  /-- `H[0..7]`, the chaining state (R20). -/
  h : Words8
  /-- `V[0..7]` = a..h, the working variables (R21). -/
  v : Words8
  /-- `W[0..63]`, the schedule store (R22). -/
  w : Schedule
  /-- `T`, the round counter (R23). -/
  t : BitVec 7
  /-- `WCNT`, the schedule fill count (R24). -/
  wcnt : BitVec 7
  /-- `HV`, the chaining-state valid flag (R27). -/
  hv : Bool
  /-- `AV`, the working-variables valid flag (R28). -/
  av : Bool
  /-- Command bytes sent by the host and not yet executed, oldest first (R37, R70). -/
  cmd : List Byte
  /-- Response bytes sent by the block and not yet taken by the host, oldest first (R37, R71, R259). -/
  resp : List Byte
  /-- The model's own: the host has asserted the hardware reset of R250 and no step has taken it yet (log entry 6). -/
  resetPending : Bool
  /-- The model's own: how many times a reset has left words unspecified; selects the free values, and copies
  with equal counts select the same ones (DESIGN CHOICE, log entry 3). -/
  draws : Nat
  deriving DecidableEq, Repr

/-- The spec's five faults (R220). Raising one is a response after which the block goes on (R224), so it is a next
state of the model, never a stop. -/
inductive FaultCode where
  /-- Raised by `PAD` (R221, R123). -/
  | invalidLength
  /-- Reserved for the host's `split` (R222); the block never raises it (log entry 15). -/
  | misalignedMessage
  /-- Raised by `DEC` (R223). -/
  | invalidDigestLength
  /-- Raised by a byte that selects no command (R225). -/
  | illegalCommand
  /-- Raised by `WSTEP`, `CINIT`, `ROUND`, `CFIN`, `COMPRESS`, `BLOCK`, `ENC` (R226). -/
  | sequenceError
  deriving DecidableEq, Repr

/-- The reasons a step can stop. Neither is a fault of the spec: each says that the block waits for the host and "No
step" exists (R87, U9; log entry 5). -/
inductive Fault where
  /-- Raised by a step when the command stream is empty. Safe: the block is idle and its state is unchanged. -/
  | awaitingOpcode
  /-- Raised by a step when the command at the front of the stream is not whole (R87: "a model gives a truncated
  command no step"). Safe: nothing has been executed. -/
  | awaitingOperands
  deriving DecidableEq, Repr

/-- The reasons a command could have no meaning. -/
inductive Refusal where
  /-- A command of the table that has no meaning yet. Raised by no arm: every command has its meaning. Safe. -/
  | notModelled (mnemonic : String)
  deriving DecidableEq, Repr

/-- The machine right after reset (R38, R251). The flags, the counters and the streams are the spec's; the words of
`H`, `V` and `W`, which the spec leaves unspecified, are zero by the model's choice (log entry 1). -/
def State.reset : State where
  h := Vector.replicate 8 0
  v := Vector.replicate 8 0
  w := Vector.replicate 64 0
  t := 0
  wcnt := 0
  hv := false
  av := false
  cmd := []
  resp := []
  resetPending := false
  draws := 0

end Sys2Proof.Machine
end

