-- ==== Sys2Proof/Machine/Flags.lean ====
section
/-! DEFINITION. Every test a command makes of the flags, the counters or its operand before it may run
(spec/60_exceptions.md R221, R226), and the status register (spec/10_state.md R30). -/

namespace Sys2Proof.Machine

/-- `PAD`'s test (R121, R123): "any of bits 63, 62, 61 of the operand is set". -/
def lengthTooLarge (l : BitVec 64) : Bool :=
  l.extractLsb' 61 3 != 0

/-- `CINIT`, `BLOCK`, `ENC` may run: `H` holds a value (R27, R226). -/
def State.hReady (s : State) : Bool :=
  s.hv

/-- `WSTEP` may run: not (`WCNT < 16` or `WCNT > 63`) (R132). -/
def State.wstepReady (s : State) : Bool :=
  !(decide (s.wcnt.toNat < 16) || decide (s.wcnt.toNat > 63))

/-- `ROUND` may run: not (`AV = 0` or `T >= 64` or `T >= WCNT`) (R148). -/
def State.roundReady (s : State) : Bool :=
  !(!s.av || decide (s.t.toNat ≥ 64) || decide (s.t.toNat ≥ s.wcnt.toNat))

/-- `CFIN` may run: not (`AV = 0` or `T != 64`) (R149). -/
def State.cfinReady (s : State) : Bool :=
  !(!s.av || decide (s.t.toNat ≠ 64))

/-- `COMPRESS` may run: not (`HV = 0` or `WCNT != 64`) (R150). -/
def State.compressReady (s : State) : Bool :=
  !(!s.hv || decide (s.wcnt.toNat ≠ 64))

/-- `STATUS = HV*2^15 + AV*2^14 + WCNT*2^7 + T` (R30): a view, not a store. -/
def State.status (s : State) : BitVec 16 :=
  BitVec.ofNat 16 (s.hv.toNat * 2^15 + s.av.toNat * 2^14 + s.wcnt.toNat * 2^7 + s.t.toNat)

end Sys2Proof.Machine
end

