-- ==== Sys2Proof/Machine/Operands.lean ====
section
/-! DEFINITION. How bytes become words and words become bytes, in one place, so that byte order is decided once:
big-endian (spec/20_memory.md R51 to R56); and the operand forms of a command (spec/30_encoding.md R70, R83 to R85). -/

namespace Sys2Proof.Machine

/-- `recv(n)` (R70): the next `n` bytes of the command stream, in order, and the bytes after them; none while fewer
than `n` have arrived (R87). -/
def recv (n : Nat) (bs : List Byte) : Option (Vector Byte n × List Byte) :=
  if h : n ≤ bs.length then
    some (⟨⟨bs.take n⟩, by simpa using h⟩, bs.drop n)
  else none

/-- `BE32(b0, b1, b2, b3)` (R52): `b0` came first and is the most significant. -/
def be32 (b0 b1 b2 b3 : Byte) : Word :=
  BitVec.ofNat 32 (b0.toNat * 2^24 + b1.toNat * 2^16 + b2.toNat * 2^8 + b3.toNat)

/-- `bytes_be(v, n)` (R53): byte `j` of the `n` bytes is `(v >> (8*(n-1-j))) & 0xFF`. The spec defines it for
`v < 2^(8n)` only (R11, R53); that a larger `v` gives its low `n` bytes is the model's choice, which no command reaches
(DESIGN CHOICE, log entry 19). -/
def bytesBE (v n : Nat) : List Byte :=
  (List.range n).map fun j => BitVec.ofNat 8 (v >>> (8 * (n - 1 - j)))

/-- The number a sequence of bytes stands for, most significant byte first: the reading `bytes_be` inverts (R53). -/
def natBE (bs : List Byte) : Nat :=
  bs.foldl (fun v b => v * 2^8 + b.toNat) 0

/-- The length operand (R83): `L = l[0]*2^56 + l[1]*2^48 + ... + l[7]`, unsigned. -/
def lengthOperand (l : Vector Byte 8) : BitVec 64 :=
  BitVec.ofNat 64
    (l[0].toNat * 2^56 + l[1].toNat * 2^48 + l[2].toNat * 2^40 + l[3].toNat * 2^32
      + l[4].toNat * 2^24 + l[5].toNat * 2^16 + l[6].toNat * 2^8 + l[7].toNat)

/-- Word `i` of a block (R54, R84): `BE32(b[4i], b[4i+1], b[4i+2], b[4i+3])`. -/
def blockWord (b : Block) (i : Fin 16) : Word :=
  be32 b[4 * i.val] b[4 * i.val + 1] b[4 * i.val + 2] b[4 * i.val + 3]

/-- `encode(S)` (R55, R170): the eight words, each as 4 big-endian bytes, in order. -/
def encodeDigest (s : Words8) : List Byte :=
  s.toList.flatMap fun x => bytesBE x.toNat 4

/-- `decode(d)` for a digest of the right length (R55, R170): word `i` is `BE32(d[4i], ..., d[4i+3])`. -/
def decodeDigest (d : Vector Byte 32) : Words8 :=
  Vector.ofFn fun i : Fin 8 => be32 d[4 * i.val] d[4 * i.val + 1] d[4 * i.val + 2] d[4 * i.val + 3]

/-- The digest operand as 32 bytes (R85): none when the count `n` is not 32. -/
def digestOperand (d : List Byte) : Option (Vector Byte 32) :=
  if h : d.length = 32 then some ⟨⟨d⟩, h⟩ else none

end Sys2Proof.Machine
end

