-- ==== Sys2Proof/Config.lean ====
section
/-! DEFINITION. The values the spec leaves open (spec/10_state.md R38, spec/93_implementation_defined.md U2): the
words `H`, `V` and `W` hold after a reset. Opaque, so that no proof can see them; the argument is the number of the
draw (the state's counter `draws`), the same for every copy of the block (DESIGN CHOICE). Log entries 2 and 3. -/

namespace Sys2Proof

/-- The unspecified contents of `H` after the `k`-th reset a step takes (R38: "unspecified; unobservable"). -/
opaque Config.unspecifiedH (k : Nat) : Words8

/-- The unspecified contents of `V` after the `k`-th reset a step takes (R38). -/
opaque Config.unspecifiedV (k : Nat) : Words8

/-- The unspecified contents of `W` after the `k`-th reset a step takes (R38). -/
opaque Config.unspecifiedW (k : Nat) : Schedule

end Sys2Proof
end

