-- ==== Sys2Proof/Machine/Ops.lean ====
section
/-! DEFINITION. The operations the commands share: sending a response, raising a fault (the block's way of taking an
exception, spec/60_exceptions.md R224), abandoning a compression (spec/70_reset_and_hazards.md R256), repeating a
step, and the reset state (R251). -/

namespace Sys2Proof.Machine

/-- The code each fault answers with (R81, R220). -/
def FaultCode.code (f : FaultCode) : Byte :=
  match f with
  | .invalidLength => 0x01
  | .misalignedMessage => 0x02
  | .invalidDigestLength => 0x03
  | .illegalCommand => 0x04
  | .sequenceError => 0x05

/-- Status `0x00`: "the command completed as its rule says" (R80). -/
def okCode : Byte := 0x00

/-- `send(bytes)` (R71): append to the response stream. -/
def State.send (bytes : List Byte) (s : State) : State :=
  { s with resp := s.resp ++ bytes }

/-- Fault entry (R224), the ONE place a fault is raised: no store, flag or counter is written, the response is the one
code byte, and the block goes on. There is no return from it (R230). -/
def raise (f : FaultCode) (s : State) : Host.Outcome State Fault Refusal :=
  .next (s.send [f.code])

/-- How a command ends (R80): with its new state and its data bytes after the OK status, or with a fault raised on the
state from before the command ("no partial results", R224, R240). -/
def finish (s : State) (r : Except FaultCode (State × List Byte)) : Host.Outcome State Fault Refusal :=
  match r with
  | .ok (s', data) => .next (s'.send (okCode :: data))
  | .error f => raise f s

/-- The end of a command that returns no data bytes (R82). -/
def finishQuiet (s : State) (r : Except FaultCode State) : Host.Outcome State Fault Refusal :=
  finish s (r.map fun s' => (s', []))

/-- `AV <- 0, T <- 0`: abandon the compression in progress, if any (R256). -/
def State.abandon (s : State) : State :=
  { s with av := false, t := 0 }

/-- Load the chaining state: `H`, `HV <- 1`, and abandon the compression (R171, R172, R256). -/
def State.loadH (h : Words8) (s : State) : State :=
  { s.abandon with h := h, hv := true }

/-- Perform an operation `n` times in sequence (R11, "repeat n times"), stopping at the first fault. -/
def repeatOp (n : Nat) (op : State → Except FaultCode State) (s : State) : Except FaultCode State :=
  match n with
  | 0 => .ok s
  | n + 1 => (op s).bind (repeatOp n op)

/-- The reset state of R251, on streams left as they are: flags and counters 0, and every word of `H`, `V`, `W`
unspecified: a free value (log entry 2). Each reset of a copy draws its own; that copies (or runs) with equal `draws` get
the same words is the model's choice, not the spec's, which leaves each copy's words open (R10, R38, R236; DESIGN CHOICE,
log entry 3). -/
def State.clear (s : State) : State :=
  { s with
    h := Config.unspecifiedH s.draws
    v := Config.unspecifiedV s.draws
    w := Config.unspecifiedW s.draws
    t := 0
    wcnt := 0
    hv := false
    av := false
    draws := s.draws + 1 }

/-- The hardware reset (R250): the reset state, the unexecuted command bytes and the undelivered response bytes
discarded, no response sent. -/
def State.hardwareReset (s : State) : State :=
  { s.clear with cmd := [], resp := [], resetPending := false }

end Sys2Proof.Machine
end

