-- ==== Sys2Proof/Machine/Codec.lean ====
section
/-! DEFINITION. The Digest Codec and the initial state (spec/44_digest_codec.md): commands `ENC`, `DEC`, `INIT`. -/

namespace Sys2Proof.Machine

/-- `ENC`'s data bytes (R173): `encode(H)`, when `H` holds a value. -/
def encData (s : State) : Except FaultCode (List Byte) :=
  if s.hReady then .ok (encodeDigest s.h)
  else .error .sequenceError

/-- The effect of `DEC d` (R172): every count other than 32 is InvalidDigestLength. -/
def decOp (d : List Byte) (s : State) : Except FaultCode State :=
  match digestOperand d with
  | some bytes => .ok (s.loadH (decodeDigest bytes))
  | none => .error .invalidDigestLength

/-- `ENC` (R173): writes nothing. -/
def execEnc (s : State) : Host.Outcome State Fault Refusal :=
  finish s ((encData s).map fun data => (s, data))

/-- `DEC d` (R172). -/
def execDec (d : List Byte) (s : State) : Host.Outcome State Fault Refusal :=
  finishQuiet s (decOp d s)

/-- `INIT` (R171). -/
def execInit (s : State) : Host.Outcome State Fault Refusal :=
  finishQuiet s (.ok (s.loadH IV))

end Sys2Proof.Machine
end

