-- ==== Sys2Proof/Machine/WordArith.lean ====
section
/-! DEFINITION. The shared datapath functions of spec/40_word_arithmetic.md (R100 to R112). -/

namespace Sys2Proof.Machine

/-- `add32(x1, ..., xn)` (R101): the exact sum of the words, reduced modulo `2^32` once. The rule is for two words or
more, and every call of a command has two or more; that one word gives itself and no word gives 0 is the model's choice
(DESIGN CHOICE, log entry 20). -/
def add32 (xs : List Word) : Word :=
  BitVec.ofNat 32 (xs.map BitVec.toNat).sum

/-- `rotr(n, x)` (R102): `(x >> n) | ((x << (32-n)) & 0xFFFFFFFF)`, defined only for `0 < n < 32` (U1): a call carries
the proof of its amount's bounds (log entry 11). Linear over exclusive-or (R111). -/
def rotr (n : Nat) (x : Word) (_bounds : 0 < n ∧ n < 32 := by decide) : Word :=
  (x >>> n) ||| (x <<< (32 - n))

/-- `x >> n` (R103): "plain right-shift ... not rotation". Linear over exclusive-or (R111). -/
def shr (n : Nat) (x : Word) : Word :=
  x >>> n

/-- `choice(x, y, z)` (R105); not linear (R111). -/
def choice (x y z : Word) : Word :=
  (x &&& y) ^^^ (~~~x &&& z)

/-- `majority(x, y, z)` (R106); not linear (R111). -/
def majority (x y z : Word) : Word :=
  (x &&& y) ^^^ (x &&& z) ^^^ (y &&& z)

/-- `bigSigma0(x)` (R107); linear over exclusive-or (R111). -/
def bigSigma0 (x : Word) : Word :=
  rotr 2 x ^^^ rotr 13 x ^^^ rotr 22 x

/-- `bigSigma1(x)` (R108); linear over exclusive-or (R111). -/
def bigSigma1 (x : Word) : Word :=
  rotr 6 x ^^^ rotr 11 x ^^^ rotr 25 x

/-- `smallSigma0(x)` (R109): the third term is a shift; linear over exclusive-or (R111). -/
def smallSigma0 (x : Word) : Word :=
  rotr 7 x ^^^ rotr 18 x ^^^ shr 3 x

/-- `smallSigma1(x)` (R110): the third term is a shift; linear over exclusive-or (R111). -/
def smallSigma1 (x : Word) : Word :=
  rotr 17 x ^^^ rotr 19 x ^^^ shr 10 x

end Sys2Proof.Machine
end

