-- ==== Sys2Proof/Machine/Scheduler.lean ====
section
/-! DEFINITION. The Message Scheduler (spec/42_scheduler.md): the schedule as a function (R130) and the commands
`LDBLK`, `WSTEP`, `SCHED`. -/

namespace Sys2Proof.Machine

/-- The recurrence of R130 for `16 <= t <= 63`, over the words before `t`. -/
def nextWord (w : Schedule) (t : Nat) (inRange : 16 ≤ t ∧ t ≤ 63) : Word :=
  add32 [smallSigma1 w[t - 2], w[t - 7], smallSigma0 w[t - 15], w[t - 16]]

/-- One step of the expansion: write word `t`. Outside `16 .. 63`, which no command reaches, there is no such step and
the store is left alone (log entry 10). -/
def schedStep (w : Schedule) (t : Nat) : Schedule :=
  if inRange : 16 ≤ t ∧ t ≤ 63 then w.set t (nextWord w t inRange) else w

/-- `W[0..15]` from a block, the other words as they were (R54, R131). -/
@[irreducible] def loadWords (b : Block) (w : Schedule) : Schedule :=
  Vector.ofFn fun i : Fin 64 => if first : i.val < 16 then blockWord b ⟨i.val, first⟩ else w[i]

/-- The first `n` steps of the expansion, in increasing `t`: words `16 .. 16 + n - 1` (R130). -/
@[irreducible] def expand (n : Nat) (w : Schedule) : Schedule :=
  (List.range' 16 n).foldl schedStep w

/-- `sched(b)` (R130), all 64 words. Every word of the store it starts from is overwritten. -/
def sched (b : Block) : Schedule :=
  expand 48 (loadWords b (Vector.replicate 64 0))

/-- The effect of `LDBLK b` (R131). -/
def State.loadBlock (b : Block) (s : State) : State :=
  { s.abandon with w := loadWords b s.w, wcnt := 16 }

/-- The effect of `WSTEP` (R132). -/
def wstepOp (s : State) : Except FaultCode State :=
  if s.wstepReady then .ok { s with w := schedStep s.w s.wcnt.toNat, wcnt := s.wcnt + 1 }
  else .error .sequenceError

/-- The effect of `SCHED b` (R133): `LDBLK b`, then 48 times `WSTEP`. -/
def schedOp (b : Block) (s : State) : Except FaultCode State :=
  repeatOp 48 wstepOp (s.loadBlock b)

/-- `LDBLK b` (R131). -/
def execLdblk (b : Block) (s : State) : Host.Outcome State Fault Refusal :=
  finishQuiet s (.ok (s.loadBlock b))

/-- `WSTEP` (R132). -/
def execWstep (s : State) : Host.Outcome State Fault Refusal :=
  finishQuiet s (wstepOp s)

/-- `SCHED b` (R133). -/
def execSched (b : Block) (s : State) : Host.Outcome State Fault Refusal :=
  finishQuiet s (schedOp b s)

end Sys2Proof.Machine
end

