-- ==== Sys2Proof/Machine/Compression.lean ====
section
/-! DEFINITION. The Compression Engine (spec/43_compression.md): the engine as a function (R145) and the commands
`CINIT`, `ROUND`, `CFIN`, `COMPRESS`, `BLOCK`. -/

namespace Sys2Proof.Machine

/-- One round (R145, R148) with constant `k` and schedule word `wt`; every right-hand side is a value from before the
round. -/
def mix (k wt : Word) (v : Words8) : Words8 :=
  let t1 := add32 [v[7], bigSigma1 v[4], choice v[4] v[5] v[6], k, wt]
  let t2 := add32 [bigSigma0 v[0], majority v[0] v[1] v[2]]
  #v[add32 [t1, t2], v[0], v[1], v[2], add32 [v[3], t1], v[4], v[5], v[6]]

/-- Round `t` on a schedule. For `t > 63`, which no command reaches, there is no `K[t]` and no round (log entry 10). -/
def roundAt (w : Schedule) (v : Words8) (t : Nat) : Words8 :=
  if inRange : t < 64 then mix K[t] w[t] v else v

/-- Rounds `0 .. n-1` (R31 (f), R145). -/
@[irreducible] def rounds (n : Nat) (w : Schedule) (v : Words8) : Words8 :=
  (List.range n).foldl (roundAt w) v

/-- Word-wise addition of two states modulo `2^32` (R145, R149). -/
def addWords (s v : Words8) : Words8 :=
  Vector.zipWith (fun x y => add32 [x, y]) s v

/-- `compress(w, S)` (R145). -/
def compress (w : Schedule) (s : Words8) : Words8 :=
  addWords s (rounds 64 w s)

/-- The effect of `CINIT` (R147). -/
def cinitOp (s : State) : Except FaultCode State :=
  if s.hReady then .ok { s with v := s.h, av := true, t := 0 }
  else .error .sequenceError

/-- The effect of `ROUND` (R148). -/
def roundOp (s : State) : Except FaultCode State :=
  if s.roundReady then .ok { s with v := roundAt s.w s.v s.t.toNat, t := s.t + 1 }
  else .error .sequenceError

/-- The effect of `CFIN` (R149). -/
def cfinOp (s : State) : Except FaultCode State :=
  if s.cfinReady then .ok { s.abandon with h := addWords s.h s.v }
  else .error .sequenceError

/-- The effect of `COMPRESS` (R150): the whole check first, then `CINIT`, 64 times `ROUND`, `CFIN`. -/
def compressOp (s : State) : Except FaultCode State :=
  if s.compressReady then ((cinitOp s).bind (repeatOp 64 roundOp)).bind cfinOp
  else .error .sequenceError

/-- The effect of `BLOCK b` (R151): the whole check first, then `SCHED b`, `COMPRESS`. -/
def blockOp (b : Block) (s : State) : Except FaultCode State :=
  if s.hReady then (schedOp b s).bind compressOp
  else .error .sequenceError

/-- `CINIT` (R147). -/
def execCinit (s : State) : Host.Outcome State Fault Refusal :=
  finishQuiet s (cinitOp s)

/-- `ROUND` (R148). -/
def execRound (s : State) : Host.Outcome State Fault Refusal :=
  finishQuiet s (roundOp s)

/-- `CFIN` (R149). -/
def execCfin (s : State) : Host.Outcome State Fault Refusal :=
  finishQuiet s (cfinOp s)

/-- `COMPRESS` (R150). -/
def execCompress (s : State) : Host.Outcome State Fault Refusal :=
  finishQuiet s (compressOp s)

/-- `BLOCK b` (R151). -/
def execBlock (b : Block) (s : State) : Host.Outcome State Fault Refusal :=
  finishQuiet s (blockOp b s)

end Sys2Proof.Machine
end

