-- ==== Sys2Proof/Machine/Padding.lean ====
section
/-! DEFINITION. The Padding Calculator (spec/41_padding.md): command `PAD`. -/

namespace Sys2Proof.Machine

/-- `k = (55 - r) mod 64` with `r = L mod 64` and the non-negative remainder (R113, R120). -/
def zeroCount (len : Nat) : Nat :=
  (((55 : Int) - (len % 64 : Nat)) % 64).toNat

/-- `pad(L)` (R120): `0x80 ‖ zeros(k) ‖ bytes_be(L * 8, 8)`. For `L >= 2^61` the spec gives `bytes_be(L * 8, 8)` no
value (R113, R123, N16), and `PAD` faults before it calls this function (`padData`); that the function itself then keeps
the low 64 bits of `L * 8` is the model's choice (DESIGN CHOICE, log entry 19). -/
def padding (len : Nat) : List Byte :=
  0x80 :: (List.replicate (zeroCount len) 0x00 ++ bytesBE (len * 8) 8)

/-- `PAD`'s data bytes (R121): `byte(9 + k) ‖ P`, or InvalidLength. -/
def padData (l : BitVec 64) : Except FaultCode (List Byte) :=
  if lengthTooLarge l then .error .invalidLength
  else .ok (BitVec.ofNat 8 (9 + zeroCount l.toNat) :: padding l.toNat)

/-- `PAD L` (R121): reads no state and writes none. -/
def execPad (l : BitVec 64) (s : State) : Host.Outcome State Fault Refusal :=
  finish s ((padData l).map fun data => (s, data))

end Sys2Proof.Machine
end

