-- ==== Sys2Proof/Machine/System.lean ====
section
/-! DEFINITION. The system commands (spec/45_system.md): `STAT` and `RESET`. -/

namespace Sys2Proof.Machine

/-- `STAT` (R185): the two bytes of `STATUS`, most significant first. -/
def execStat (s : State) : Host.Outcome State Fault Refusal :=
  finish s (.ok (s, bytesBE s.status.toNat 2))

/-- `RESET` (R186): the reset state, in stream order, the streams not disturbed. -/
def execReset (s : State) : Host.Outcome State Fault Refusal :=
  finishQuiet s (.ok s.clear)

end Sys2Proof.Machine
end

