-- ==== Sys2Proof/Machine/Dispatch.lean ====
section
/-! DEFINITION. The meaning of each command, one arm per constructor, in the order of spec/opcode_table.json. -/

namespace Sys2Proof.Machine

def exec (i : Instr) (s : State) : Host.Outcome State Fault Refusal :=
  match i with
  | .pad len => Sys2Proof.Machine.execPad len s
  | .ldblk b => Sys2Proof.Machine.execLdblk b s
  | .wstep => Sys2Proof.Machine.execWstep s
  | .sched b => Sys2Proof.Machine.execSched b s
  | .cinit => Sys2Proof.Machine.execCinit s
  | .round => Sys2Proof.Machine.execRound s
  | .cfin => Sys2Proof.Machine.execCfin s
  | .compress => Sys2Proof.Machine.execCompress s
  | .block b => Sys2Proof.Machine.execBlock b s
  | .enc => Sys2Proof.Machine.execEnc s
  | .dec d => Sys2Proof.Machine.execDec d s
  | .init => Sys2Proof.Machine.execInit s
  | .stat => Sys2Proof.Machine.execStat s
  | .reset => Sys2Proof.Machine.execReset s

end Sys2Proof.Machine
end

