-- ==== Sys2Proof/WellFormed.lean ====
section
/-! DEFINITION. Which command terms have an encoding (spec/30_encoding.md R76, R85, R90). Everything but the digest
operand's length is already in the types. -/

namespace Sys2Proof

/-- A command can be put on the stream. Only `DEC` has a check: its count is one byte, so "a digest operand longer than
255 bytes cannot be expressed" (R85). -/
def WellFormed (i : Instr) : Bool :=
  match i with
  | .dec d => decide (d.length ≤ 255)
  | .pad _ => true
  | .ldblk _ => true
  | .wstep => true
  | .sched _ => true
  | .cinit => true
  | .round => true
  | .cfin => true
  | .compress => true
  | .block _ => true
  | .enc => true
  | .init => true
  | .stat => true
  | .reset => true

end Sys2Proof
end

