-- ==== Sys2Proof/Decode.lean ====
section
/-! DEFINITION. The command encoding of spec/30_encoding.md: the decoder, total on every byte sequence (R70 to R79,
R83 to R87), and the encoder (R72 to R77, R90). -/

namespace Sys2Proof

open Sys2Proof.Machine (recv lengthOperand bytesBE)

/-- The opcode map (R77). -/
def Opcode.toByte (o : Opcode) : Byte :=
  match o with
  | .pad => 0x01
  | .ldblk => 0x02
  | .wstep => 0x03
  | .sched => 0x04
  | .cinit => 0x05
  | .round => 0x06
  | .cfin => 0x07
  | .compress => 0x08
  | .block => 0x09
  | .enc => 0x0A
  | .dec => 0x0B
  | .init => 0x0C
  | .stat => 0x0D
  | .reset => 0x0E

/-- The opcodes, in the order of the table of R77. -/
def Opcode.all : List Opcode :=
  [.pad, .ldblk, .wstep, .sched, .cinit, .round, .cfin, .compress, .block, .enc, .dec, .init, .stat, .reset]

/-- The opcode byte "selects the command by its full 8-bit value" (R77); none for the 242 bytes of R78. -/
def Opcode.ofByte (b : Byte) : Option Opcode :=
  Opcode.all.find? fun o => o.toByte == b

/-- The format of each command (R77). -/
def Opcode.format (o : Opcode) : Format :=
  match o with
  | .pad => .fl
  | .ldblk => .fb
  | .wstep => .f0
  | .sched => .fb
  | .cinit => .f0
  | .round => .f0
  | .cfin => .f0
  | .compress => .f0
  | .block => .fb
  | .enc => .f0
  | .dec => .fd
  | .init => .f0
  | .stat => .f0
  | .reset => .f0

/-- The opcode a command opens with. -/
def Instr.opcode (i : Instr) : Opcode :=
  match i with
  | .pad _ => .pad
  | .ldblk _ => .ldblk
  | .wstep => .wstep
  | .sched _ => .sched
  | .cinit => .cinit
  | .round => .round
  | .cfin => .cfin
  | .compress => .compress
  | .block _ => .block
  | .enc => .enc
  | .dec _ => .dec
  | .init => .init
  | .stat => .stat
  | .reset => .reset

/-- What the decoder finds at the front of the command stream. -/
inductive Decoded where
  /-- A whole command, and the bytes after it. -/
  | command (i : Instr) (rest : List Byte)
  /-- A byte that selects no command (R78), and the bytes after it. -/
  | illegal (op : Byte) (rest : List Byte)
  /-- No byte at all. -/
  | noOpcode
  /-- An opcode whose operand bytes have not all arrived (R87). -/
  | truncated
  deriving DecidableEq, Repr

/-- Format `FL` (R74): eight bytes of length. -/
def decodeLength (rest : List Byte) : Decoded :=
  match recv 8 rest with
  | some (l, tail) => .command (.pad (lengthOperand l)) tail
  | none => .truncated

/-- Format `FB` (R75): exactly 64 bytes, given to the command `mk`. -/
def decodeBlock (mk : Block → Instr) (rest : List Byte) : Decoded :=
  match recv 64 rest with
  | some (b, tail) => .command (mk b) tail
  | none => .truncated

/-- Format `FD` (R76): a count byte `n`, then exactly `n` bytes. -/
def decodeCounted (rest : List Byte) : Decoded :=
  match rest with
  | [] => .truncated
  | n :: more =>
    match recv n.toNat more with
    | some (d, tail) => .command (.dec d.toList) tail
    | none => .truncated

/-- The command a known opcode opens, from the bytes after it (R72 to R76, R86). -/
def decodeOperands (o : Opcode) (rest : List Byte) : Decoded :=
  match o with
  | .pad => decodeLength rest
  | .ldblk => decodeBlock .ldblk rest
  | .wstep => .command .wstep rest
  | .sched => decodeBlock .sched rest
  | .cinit => .command .cinit rest
  | .round => .command .round rest
  | .cfin => .command .cfin rest
  | .compress => .command .compress rest
  | .block => decodeBlock .block rest
  | .enc => .command .enc rest
  | .dec => decodeCounted rest
  | .init => .command .init rest
  | .stat => .command .stat rest
  | .reset => .command .reset rest

/-- The decoder (R86): total on every byte sequence, rejecting by name. -/
def decode (bs : List Byte) : Decoded :=
  match bs with
  | [] => .noOpcode
  | op :: rest =>
    match Opcode.ofByte op with
    | some o => decodeOperands o rest
    | none => .illegal op rest

/-- The operand bytes of a command (R72 to R76). A `DEC` operand of more than 255 bytes "cannot be expressed" (R85): that
such a term, which is not well-formed, gets a count byte of the length modulo 256 and then all its bytes is the model's
choice (DESIGN CHOICE, log entry 12). -/
def operandBytes (i : Instr) : List Byte :=
  match i with
  | .pad l => bytesBE l.toNat 8
  | .ldblk b => b.toList
  | .wstep => []
  | .sched b => b.toList
  | .cinit => []
  | .round => []
  | .cfin => []
  | .compress => []
  | .block b => b.toList
  | .enc => []
  | .dec d => BitVec.ofNat 8 d.length :: d
  | .init => []
  | .stat => []
  | .reset => []

/-- The bytes of a command on the stream (R72, R90); of a term that is not well-formed, bytes the model chose (log
entry 12). -/
def encode (i : Instr) : List Byte :=
  i.opcode.toByte :: operandBytes i

/-- The longest command: `DEC` with 255 bytes of digest (R76). -/
def longestCommand : Nat := 257

/-- The bytes of a table word, first byte in bits 7..0, every bit from `nbits` up being 0, up to the longest command
(assumption log entry 16). -/
def tableBytes (nbits w : Nat) : List Byte :=
  (List.range longestCommand).map fun j => BitVec.ofNat 8 ((w % 2 ^ nbits) >>> (8 * j))

/-- The bytes the first command (or illegal byte) of a sequence takes from it. -/
def firstCommandBytes (bs : List Byte) : List Byte :=
  match decode bs with
  | .command _ rest => bs.take (bs.length - rest.length)
  | .illegal _ rest => bs.take (bs.length - rest.length)
  | .noOpcode => bs
  | .truncated => bs

/-- The command the decoder reads from a word of spec/opcode_table.json, or none where it refuses. -/
def decodeTableWord (nbits w : Nat) : Option Instr :=
  match decode (tableBytes nbits w) with
  | .command i _ => some i
  | .illegal _ _ => none
  | .noOpcode => none
  | .truncated => none

end Sys2Proof
end

