-- ==== Sys2Proof/Machine/Fetch.lean ====
section
/-! DEFINITION. What the block does next: take a pending hardware reset (spec/70_reset_and_hazards.md R250), take the
command at the front of the command stream with all its operand bytes (spec/30_encoding.md R70, R76), take an illegal
byte (R78), or wait (R87). And the operation that puts a table word at the front of the stream. -/

namespace Sys2Proof.Machine

/-- What a step finds to do. -/
inductive Fetched where
  /-- A hardware reset has been asserted (R250). -/
  | hardReset
  /-- A whole command, and the state with its bytes taken from the stream. -/
  | command (i : Instr) (s : State)
  /-- An illegal byte, and the state with that one byte taken. -/
  | illegal (s : State)
  /-- Nothing whole has arrived. -/
  | waiting (why : Fault)
  deriving DecidableEq, Repr

/-- Take the next command. The operand bytes are taken before any test of the command (R76, R151, R224). -/
def fetch (s : State) : Fetched :=
  if s.resetPending then .hardReset
  else
    match decode s.cmd with
    | .command i rest => .command i { s with cmd := rest }
    | .illegal _ rest => .illegal { s with cmd := rest }
    | .noOpcode => .waiting .awaitingOpcode
    | .truncated => .waiting .awaitingOperands

/-- The state with the given bytes placed ahead of everything on the command stream, and no reset pending. -/
def State.placeNext (bytes : List Byte) (s : State) : State :=
  { s with cmd := bytes ++ s.cmd, resetPending := false }

end Sys2Proof.Machine
end

