-- ==== Sys2Proof/Machine/Step.lean ====
section
/-! DEFINITION. One step of the block: "take the next command, change the state as its rule says, emit its response"
(spec/00_scope.md R12). -/

namespace Sys2Proof.Machine

/-- The step. -/
def step (s : State) : Host.Outcome State Fault Refusal :=
  match fetch s with
  | .hardReset => .next s.hardwareReset
  | .command i s' => exec i s'
  | .illegal s' => raise .illegalCommand s'
  | .waiting why => .fault why

/-- `s` with the command of a table word placed where the next step takes its command from: the front of the command
stream (log entries 7 and 17). -/
def State.withFetchWord (s : State) (nbits w : Nat) : State :=
  s.placeNext (firstCommandBytes (tableBytes nbits w))

end Sys2Proof.Machine
end

