-- ==== Sys2Proof/Machine/Copies.lean ====
section
/-! DEFINITION. Several copies of the block (spec/10_state.md R36, spec/60_exceptions.md R236): `NINST` is the number
of entries; each has all of its own state and streams, and they share only the ROMs (log entry 8). The words a
reset leaves unspecified are open in each copy; that copies with equal `draws` get the same ones is the model's choice
(log entry 3). -/

namespace Sys2Proof.Machine

/-- A system of copies, each with its whole state. -/
structure Copies where
  /-- The copies, by number; their count is the parameter `NINST` (R10). -/
  blocks : List State
  deriving DecidableEq, Repr

/-- Copy `k` takes one step; there is no such step when there is no such copy or the copy waits for its host. -/
def Copies.stepCopy (k : Nat) (c : Copies) : Option Copies :=
  match c.blocks[k]? with
  | none => none
  | some s =>
    match step s with
    | .next s' => some { blocks := c.blocks.set k s' }
    | .fault _ => none
    | .refused _ => none

end Sys2Proof.Machine
end

