-- ==== Sys2Proof/Machine/HostPort.lean ====
section
/-! DEFINITION. What the outside world can do to the block, between two steps: send command bytes and take response
bytes (spec/30_encoding.md R70, R71, spec/70_reset_and_hazards.md R258, R259) and assert the hardware reset (R250). -/

namespace Sys2Proof.Machine

/-- The host sends bytes: they join the end of the command stream (R70). -/
def State.hostSend (bytes : List Byte) (s : State) : State :=
  { s with cmd := s.cmd ++ bytes }

/-- The host takes the first `n` response bytes (R71), or all there are when there are fewer (log entry 4); the bytes
taken are `s.resp.take n`. -/
def State.hostTake (n : Nat) (s : State) : State :=
  { s with resp := s.resp.drop n }

/-- The host asserts the hardware reset (R250): the next step takes it. -/
def State.assertReset (s : State) : State :=
  { s with resetPending := true }

/-- Nothing is under way: no unexecuted command byte, no response byte the host has not taken, no reset pending. -/
def State.idle (s : State) : Bool :=
  s.cmd.isEmpty && s.resp.isEmpty && !s.resetPending

end Sys2Proof.Machine
end

