-- ==== Sys2Proof/Machine/Procedures.lean ====
section
/-! DEFINITION. The host procedures (spec/46_host_sequences.md R190 to R197): the Block Splitter, the Top-level Hash
and the Length-Extension Constructor, as the command sequences a host issues to the block. Beside them, the pure hash
function their results are compared with (R192, R195). -/

namespace Sys2Proof.Machine

/-- Why a host procedure ends without a result. -/
inductive HostError where
  /-- The document's error condition, reported by the block or detected by the host (R190, R196). -/
  | condition (f : FaultCode)
  /-- The block was not idle when the procedure would issue a command, or gave no response of the form of R80 to R82
  (log entry 14). -/
  | noResponse
  deriving DecidableEq, Repr

/-- A host procedure: it drives the block, so it runs on the block's state, and it may end in an error, of which the
block's state remains (R196: "A failed `LENEXT` may leave the block with `H` loaded from `D`"). -/
abbrev HostProc (α : Type) := EStateM HostError State α

/-- The fault a status byte stands for (R81); none for OK and for the codes that are "never sent". -/
def FaultCode.ofCode (b : Byte) : Option FaultCode :=
  [FaultCode.invalidLength, .misalignedMessage, .invalidDigestLength, .illegalCommand, .sequenceError].find?
    fun f => f.code == b

/-- How many data bytes follow an OK status in the response to a command: the table of R82, where `PAD`'s first data
byte says how many come after it. `more` is what follows the status. -/
def answerLength (i : Instr) (more : List Byte) : Nat :=
  match i with
  | .pad _ =>
    match more with
    | padLen :: _ => 1 + padLen.toNat
    | [] => 1
  | .enc => 32
  | .stat => 2
  | .ldblk _ => 0
  | .wstep => 0
  | .sched _ => 0
  | .cinit => 0
  | .round => 0
  | .cfin => 0
  | .compress => 0
  | .block _ => 0
  | .dec _ => 0
  | .init => 0
  | .reset => 0

/-- The response to command `i` at the front of the response stream: its data bytes or the fault its status reports, and
how many bytes it takes ("The host can tell where each response ends from rules R80 to R82", R71). None while it is not
whole, and for a status that is "never sent" (R81; log entry 14). -/
def parseResponse (i : Instr) (bytes : List Byte) : Option (Except FaultCode (List Byte) × Nat) :=
  match bytes with
  | [] => none
  | status :: more =>
    if status = okCode then
      if answerLength i more ≤ more.length then
        some (.ok (more.take (answerLength i more)), 1 + answerLength i more)
      else none
    else (FaultCode.ofCode status).map fun f => (.error f, 1)

/-- Issue one command: send its bytes, let the block execute it, and take its response (R64, R190), all of it and
nothing else. The host issues only to an idle block, so that the next response is the command's own (R63, R64): on any
other block nothing is sent and the procedure ends in noResponse (DESIGN CHOICE, log entry 14). -/
def issue (i : Instr) : HostProc (List Byte) := fun s =>
  if s.idle then
    match step (s.hostSend (encode i)) with
    | .next s' =>
      match parseResponse i s'.resp with
      | some (.ok data, n) => .ok data (s'.hostTake n)
      | some (.error f, n) => .error (.condition f) (s'.hostTake n)
      | none => .error .noResponse s'
    | .fault _ => .error .noResponse (s.hostSend (encode i))
    | .refused _ => .error .noResponse (s.hostSend (encode i))
  else .error .noResponse s

/-- Issue a sequence of commands that return no data. -/
def issueAll (is : List Instr) : HostProc Unit :=
  match is with
  | [] => pure ()
  | i :: more => do
    let _ ← issue i
    issueAll more

/-- Cut `n` blocks from the front of a byte sequence: as many as there are when there are fewer, which `split` and `sha256`
never ask for (DESIGN CHOICE, log entry 21). -/
def cutBlocks (n : Nat) (m : List Byte) : List Block :=
  match n with
  | 0 => []
  | n + 1 =>
    match recv 64 m with
    | some (b, rest) => b :: cutBlocks n rest
    | none => []

/-- `split(M)` (R191): the `len(M) / 64` blocks in original order, or MisalignedMessage. -/
def split (m : List Byte) : Except FaultCode (List Block) :=
  if m.length % 64 = 0 then .ok (cutBlocks (m.length / 64) m) else .error .misalignedMessage

/-- `split` inside a procedure: its condition is reported to the host's caller (R190). -/
def splitProc (m : List Byte) : HostProc (List Block) := fun s =>
  match split m with
  | .ok bs => .ok bs s
  | .error f => .error (.condition f) s

/-- Send `PAD L` and take the padding from its response (R82): one byte `PADLEN`, then `PADLEN` bytes. A length that does
not fit the 64-bit operand is InvalidLength, detected by the host itself (R196, N13). -/
def padProc (len : Nat) : HostProc (List Byte) := do
  if len < 2 ^ 64 then
    let data ← issue (.pad (BitVec.ofNat 64 len))
    match data with
    | padLen :: p => pure (p.take padLen.toNat)
    | [] => throw .noResponse
  else
    throw (.condition .invalidLength)

/-- Send `DEC D`. A digest that does not fit the counted operand is InvalidDigestLength, detected by the host itself
(R196). -/
def decProc (d : List Byte) : HostProc Unit := do
  if d.length ≤ 255 then
    let _ ← issue (.dec d)
    pure ()
  else
    throw (.condition .invalidDigestLength)

/-- `SHA256 m` (R192). -/
def sha256Proc (m : List Byte) : HostProc (List Byte) := do
  let p ← padProc m.length
  let bs ← splitProc (m ++ p)
  let _ ← issue .init
  issueAll (bs.map .block)
  issue .enc

/-- `LENEXT D, L, s` (R193): the effective appended bytes and the new digest. -/
def lenextProc (d : List Byte) (len : Int) (suffix : List Byte) : HostProc (List Byte × List Byte) := do
  if len < 0 ∨ len ≥ 2 ^ 64 then
    throw (.condition .invalidLength)
  let p0 ← padProc len.toNat
  let p1 ← padProc (len.toNat + p0.length + suffix.length)
  decProc d
  let bs ← splitProc (suffix ++ p1)
  issueAll (bs.map .block)
  let newDigest ← issue .enc
  pure (p0 ++ suffix, newDigest)

/-- The fold over blocks (R153): `S_(j+1) = compress(sched(B_j), S_j)`. -/
def chain (s : Words8) (bs : List Block) : Words8 :=
  bs.foldl (fun st b => compress (sched b) st) s

/-- `sha256(m) = encode(S_n)` (R192), as a function of the message alone. The spec gives it for messages shorter than
`2^61` bytes, and the procedure faults on longer ones; that the function itself then goes on with `padding`'s value there is
the model's choice (DESIGN CHOICE, log entry 19). -/
def sha256 (m : List Byte) : List Byte :=
  let padded := m ++ padding m.length
  encodeDigest (chain IV (cutBlocks (padded.length / 64) padded))

end Sys2Proof.Machine
end

