-- ==== Sys2Proof/Machine/Run.lean ====
section
/-! DEFINITION. Sequences of commands: "the composition of their rules in stream order" (spec/20_memory.md R63). -/

namespace Sys2Proof.Machine

/-- Execute the commands one after the other, stopping at the first that gives no next state. -/
def execSeq (is : List Instr) (s : State) : Host.Outcome State Fault Refusal :=
  match is with
  | [] => .next s
  | i :: more =>
    match exec i s with
    | .next s' => execSeq more s'
    | .fault why => .fault why
    | .refused why => .refused why

/-- The bytes of a sequence of commands on the stream; "there is no padding between commands" (R59). -/
def encodeSeq (is : List Instr) : List Byte :=
  is.flatMap encode

/-- The finest-grained commands for one compression of the schedule in `W` (R150). -/
def compressSteps : List Instr :=
  .cinit :: (List.replicate 64 .round ++ [.cfin])

/-- The finest-grained commands for one schedule (R133). -/
def schedSteps (b : Block) : List Instr :=
  .ldblk b :: List.replicate 48 .wstep

end Sys2Proof.Machine
end

