-- ==== Sys2Proof/Safety.lean ====
section
/-! DEFINITION. What the claims are about: the reset states (spec/10_state.md R38, R251), the invariants of R31 with the
block last loaded as a ghost, the states that can be reached, and what a host can observe of a state (R38, R261). -/

namespace Sys2Proof.Machine

/-- The flags and counters of a reset state (R38, R251); the words of `H`, `V`, `W` may be any. -/
def State.IsReset (s : State) : Prop :=
  s.hv = false ∧ s.av = false ∧ s.wcnt = 0 ∧ s.t = 0

/-- The block last loaded (R31 (e)), after command `i` executed in state `s`: `LDBLK`, `SCHED` and a `BLOCK` that does not
fault load one; `RESET` leaves none. -/
def loadedBy (last : Option Block) (i : Instr) (s : State) : Option Block :=
  match i with
  | .ldblk b => some b
  | .sched b => some b
  | .block b => if s.hReady then some b else last
  | .reset => none
  | .pad _ => last
  | .wstep => last
  | .cinit => last
  | .round => last
  | .cfin => last
  | .compress => last
  | .enc => last
  | .dec _ => last
  | .init => last
  | .stat => last

/-- The block last loaded, after one step from `s`. -/
def loadedByStep (last : Option Block) (s : State) : Option Block :=
  match fetch s with
  | .hardReset => none
  | .command i s' => loadedBy last i s'
  | .illegal _ => last
  | .waiting _ => last

/-- The invariants of R31, clause by clause, where `last` is the block last loaded since reset. -/
structure State.Inv (last : Option Block) (s : State) : Prop where
  /-- (a) `AV = 1` implies `HV = 1`. -/
  av_hv : s.av = true → s.hv = true
  /-- (b) `AV = 0` implies `T = 0`. -/
  av_t : s.av = false → s.t = 0
  /-- (c) `T <= WCNT`. -/
  t_le_wcnt : s.t.toNat ≤ s.wcnt.toNat
  /-- (c) `T <= 64`. -/
  t_le_64 : s.t.toNat ≤ 64
  /-- (d) `WCNT` is 0 or in `16 .. 64`. -/
  wcnt_legal : s.wcnt.toNat = 0 ∨ 16 ≤ s.wcnt.toNat ∧ s.wcnt.toNat ≤ 64
  /-- (e) `W[0..15]` are the sixteen big-endian words of the last block loaded. -/
  block_words : 16 ≤ s.wcnt.toNat → ∃ b, last = some b ∧ ∀ i : Fin 16, s.w[i.val] = blockWord b i
  /-- (e) every valid word from `W[16]` on obeys the recurrence. -/
  recurrence : ∀ (t : Nat) (inRange : 16 ≤ t ∧ t ≤ 63), t < s.wcnt.toNat → s.w[t] = nextWord s.w t inRange
  /-- (f) if `AV = 1`, `V` is the result of applying rounds `0 .. T-1`, with the current `W`, to the current `H`. -/
  partial_rounds : s.av = true → s.v = rounds s.t.toNat s.w s.h

/-- The states reached from a reset state, whatever the host does between steps, with the block last loaded. -/
inductive Reachable : Option Block → State → Prop where
  /-- A reset state, with any words and any bytes on the streams. -/
  | start (s : State) : s.IsReset → Reachable none s
  /-- A step of the block. -/
  | step (last : Option Block) (s s' : State) :
      Reachable last s → step s = .next s' → Reachable (loadedByStep last s) s'
  /-- The host sends bytes. -/
  | hostSend (last : Option Block) (s : State) (bytes : List Byte) :
      Reachable last s → Reachable last (s.hostSend bytes)
  /-- The host takes response bytes. -/
  | hostTake (last : Option Block) (s : State) (n : Nat) : Reachable last s → Reachable last (s.hostTake n)
  /-- The host asserts reset. -/
  | assertReset (last : Option Block) (s : State) : Reachable last s → Reachable last s.assertReset

/-- Two states differ at most in words no rule reads (R38): `H` while `HV = 0`, `V` while `AV = 0`, `W[i]` for
`i >= WCNT`; and in the model's own draw counter. -/
structure State.Alike (s₁ s₂ : State) : Prop where
  t : s₁.t = s₂.t
  wcnt : s₁.wcnt = s₂.wcnt
  hv : s₁.hv = s₂.hv
  av : s₁.av = s₂.av
  cmd : s₁.cmd = s₂.cmd
  resp : s₁.resp = s₂.resp
  resetPending : s₁.resetPending = s₂.resetPending
  h : s₁.hv = true → s₁.h = s₂.h
  v : s₁.av = true → s₁.v = s₂.v
  w : ∀ (i : Nat) (inRange : i < 64), i < s₁.wcnt.toNat → s₁.w[i] = s₂.w[i]

/-- Two steps end alike: in alike states (whose response streams are then equal), or in the same stop. -/
def EndAlike (o₁ o₂ : Host.Outcome State Fault Refusal) : Prop :=
  match o₁, o₂ with
  | .next a, .next b => a.Alike b
  | .fault f, .fault g => f = g
  | .refused f, .refused g => f = g
  | _, _ => False

/-- The kind of fault a command can raise: the one entry of its row in R227's table, if it has one. -/
def faultColumn (i : Instr) : Option FaultCode :=
  match i with
  | .pad _ => some .invalidLength
  | .ldblk _ => none
  | .wstep => some .sequenceError
  | .sched _ => none
  | .cinit => some .sequenceError
  | .round => some .sequenceError
  | .cfin => some .sequenceError
  | .compress => some .sequenceError
  | .block _ => some .sequenceError
  | .enc => some .sequenceError
  | .dec _ => some .invalidDigestLength
  | .init => none
  | .stat => none
  | .reset => none

/-- When a command raises SequenceError: the table of R226, row by row. -/
def sequenceCause (i : Instr) (s : State) : Prop :=
  match i with
  | .wstep => s.wcnt.toNat < 16 ∨ s.wcnt.toNat = 64
  | .cinit => s.hv = false
  | .round => s.av = false ∨ s.t.toNat = 64 ∨ s.t.toNat ≥ s.wcnt.toNat
  | .cfin => s.av = false ∨ s.t.toNat ≠ 64
  | .compress => s.hv = false ∨ s.wcnt.toNat ≠ 64
  | .block _ => s.hv = false
  | .enc => s.hv = false
  | .pad _ => False
  | .ldblk _ => False
  | .sched _ => False
  | .dec _ => False
  | .init => False
  | .stat => False
  | .reset => False

/-- The number of data bytes in an OK response: the table of R82. -/
def dataLength (i : Instr) : Nat :=
  match i with
  | .pad len => 1 + (padding len.toNat).length
  | .enc => 32
  | .stat => 2
  | .ldblk _ => 0
  | .wstep => 0
  | .sched _ => 0
  | .cinit => 0
  | .round => 0
  | .cfin => 0
  | .compress => 0
  | .block _ => 0
  | .dec _ => 0
  | .init => 0
  | .reset => 0

end Sys2Proof.Machine
end

