-- ==== Sys2Proof/Certificates/Slice0/Obligations.lean ====
section
/-! DEFINITION. The statements for the provers. Each formalises or rests on the rules of spec/ its docstring names.
A statement whose conclusion gives the next state as `{ s with … }`, or field by field for every field, is at once the
result, the completion and the frame of the command. Where the block's word contents are unspecified (after a reset)
no statement says what they are. -/

open Sys2Proof Sys2Proof.Machine

/-! ## Encoding -/

/-- Decoding the bytes of a well-formed command, whatever follows them, gives that command and what follows
(R72 to R77, R83 to R85). -/
def Obligations.DecodeEncodeRoundTrip : Prop :=
  ∀ (i : Instr) (rest : List Byte), WellFormed i = true → decode (encode i ++ rest) = .command i rest

/-- Whatever decodes to a command is exactly that command's bytes and the bytes after them: no byte of the stream is
dropped or ignored (R79). -/
def Obligations.DecodedBytesAreTheEncoding : Prop :=
  ∀ (bs rest : List Byte) (i : Instr), decode bs = .command i rest → WellFormed i = true ∧ encode i ++ rest = bs

/-- How a decoder finds the length of a command, and that a sequence of bytes splits in one way only (R86). -/
def Obligations.CommandLengthFromOpcode : Prop :=
  (∀ (i₁ i₂ : Instr) (rest₁ rest₂ : List Byte), WellFormed i₁ = true → WellFormed i₂ = true →
    encode i₁ ++ rest₁ = encode i₂ ++ rest₂ → i₁ = i₂ ∧ rest₁ = rest₂) ∧
  ∀ (op : Byte) (rest : List Byte),
    (op.toNat ∈ [0x03, 0x05, 0x06, 0x07, 0x08, 0x0A, 0x0C, 0x0D, 0x0E] →
      ∃ i, decode (op :: rest) = .command i rest) ∧
    (op.toNat = 0x01 →
      (8 ≤ rest.length → ∃ i, decode (op :: rest) = .command i (rest.drop 8)) ∧
      (rest.length < 8 → decode (op :: rest) = .truncated)) ∧
    (op.toNat ∈ [0x02, 0x04, 0x09] →
      (64 ≤ rest.length → ∃ i, decode (op :: rest) = .command i (rest.drop 64)) ∧
      (rest.length < 64 → decode (op :: rest) = .truncated)) ∧
    (op.toNat = 0x0B →
      (rest = [] → decode (op :: rest) = .truncated) ∧
      ∀ (n : Byte) (more : List Byte), rest = n :: more →
        (n.toNat ≤ more.length → ∃ i, decode (op :: rest) = .command i (more.drop n.toNat)) ∧
        (more.length < n.toNat → decode (op :: rest) = .truncated)) ∧
    (op.toNat = 0 ∨ 0x0F ≤ op.toNat → decode (op :: rest) = .illegal op rest)

/-- Some byte sequences written out from the encodings of the spec decode to the commands they stand for (R77, section 7
of 30_encoding.md). The last two clauses put a command's bytes into a table word in the model's own numbering (byte 0 in
bits 7..0, zeros above `nbits`): the model's choice, log entry 16. -/
def Obligations.WorkedEncodingsDecode : Prop :=
  decode [0x01, 0, 0, 0, 0, 0, 0, 0, 3] = .command (.pad 3) [] ∧
  decode [0x0c, 0x0a] = .command .init [0x0a] ∧
  decode [0x0b, 4, 0, 1, 2, 3] = .command (.dec [0, 1, 2, 3]) [] ∧
  decode [0x00, 0xff, 0x0d] = .illegal 0x00 [0xff, 0x0d] ∧
  decodeTableWord 8 0x03 = some .wstep ∧
  decodeTableWord 72 (0x01 + 3 * 2 ^ 64) = some (.pad 3)

/-! ## The step and the streams -/

/-- When the front of the command stream is a well-formed command, the step is that command's meaning, on the state
from which its bytes have been taken (R12, R70). -/
def Obligations.StepRunsDecodedCommand : Prop :=
  ∀ (s : State) (i : Instr) (rest : List Byte), WellFormed i = true → s.resetPending = false →
    s.cmd = encode i ++ rest → step s = exec i { s with cmd := rest }

/-- A command whose bytes have not all arrived has no step; once the missing bytes arrive it is executed as if they
had arrived together (R87). That "no step" is a stop named awaitingOperands (log entry 5) and that the bytes that have
arrived stay on the stream meanwhile (log entry 4) are the model's choices of form. -/
def Obligations.TruncatedCommandHasNoStep : Prop :=
  ∀ (s : State) (i : Instr) (got missing : List Byte), WellFormed i = true → encode i = got ++ missing → got ≠ [] →
    missing ≠ [] → s.resetPending = false → s.cmd = got →
    step s = .fault .awaitingOperands ∧ step (s.hostSend missing) = exec i { s with cmd := [] }

/-- An illegal opcode takes that one byte only, changes no other state and answers 0x04 (R78, R225). -/
def Obligations.IllegalByteAnswersOneCode : Prop :=
  ∀ (s : State) (op : Byte) (rest : List Byte), s.resetPending = false → s.cmd = op :: rest →
    (op.toNat = 0 ∨ 0x0F ≤ op.toNat → step s = .next { s with cmd := rest, resp := s.resp ++ [0x04] }) ∧
    (¬(op.toNat = 0 ∨ 0x0F ≤ op.toNat) → ∀ (op' : Byte) (rest' : List Byte), decode s.cmd ≠ .illegal op' rest')

/-- Commands sent together are executed in stream order, one at a time, each by its own rule, and the responses come
in the same order, one per command (R63). -/
def Obligations.StreamRunsCommandsInOrder : Prop :=
  ∀ (is : List Instr) (s : State) (rest : List Byte), (∀ i ∈ is, WellFormed i = true) → s.resetPending = false →
    s.cmd = encodeSeq is ++ rest →
    Sys2Proof.core.run is.length s = execSeq is { s with cmd := rest } ∧
    ∃ answers : List (List Byte), answers.length = is.length ∧
      ∀ (k : Nat) (i : Instr) (answer : List Byte), is[k]? = some i → answers[k]? = some answer → answer ≠ [] ∧
        ∃ u v, execSeq (is.take k) { s with cmd := rest } = .next u ∧ exec i u = .next v ∧
          u.resp = s.resp ++ (answers.take k).flatten ∧ v.resp = u.resp ++ answer

/-- Every command, once all its bytes have arrived, completes; the block stops exactly when it waits for bytes, and
no command lacks a meaning (R87, R260). -/
def Obligations.BlockStopsOnlyToWait : Prop :=
  (∀ (i : Instr) (s : State), ∃ t, exec i s = .next t) ∧
  (∀ s : State, (∃ t, step s = .next t) ↔
    s.resetPending = true ∨ (decode s.cmd ≠ .noOpcode ∧ decode s.cmd ≠ .truncated)) ∧
  ∀ (s : State) (why : Refusal), step s ≠ .refused why

/-- Hardware reset, at any time: the next step discards the unexecuted command bytes and the undelivered responses,
sends nothing and gives a reset state, from which the first byte is read as an opcode (R250). -/
def Obligations.HardwareResetDiscardsStreams : Prop :=
  ∀ s : State, ∃ t, step s.assertReset = .next t ∧ t.IsReset ∧ t.cmd = [] ∧ t.resp = [] ∧ t.resetPending = false ∧
    ∀ (i : Instr) (rest : List Byte), WellFormed i = true →
      step (t.hostSend (encode i ++ rest)) = exec i { t with cmd := rest }

/-! ## Word arithmetic -/

/-- Addition is exact addition modulo `2^32`, in any grouping and any order (R101). For lists of fewer than two words,
which the rule does not speak of, it states the model's choice (log entry 20). -/
def Obligations.AdditionWrapsInAnyOrder : Prop :=
  ∀ xs ys : List Word,
    (add32 xs).toNat = (xs.map BitVec.toNat).sum % 2 ^ 32 ∧
    add32 (xs ++ ys) = add32 [add32 xs, add32 ys] ∧
    (xs.Perm ys → add32 xs = add32 ys)

/-- Rotation is the masked shift formula, moves bit `(i + n) mod 32` to bit `i`, and two rotations add up (R102). -/
def Obligations.RotationMovesBits : Prop :=
  (∀ (n : Nat) (bounds : 0 < n ∧ n < 32) (x : Word),
    (rotr n x bounds).toNat = (x.toNat >>> n) ||| ((x.toNat <<< (32 - n)) &&& 0xFFFFFFFF)) ∧
  (∀ (n : Nat) (bounds : 0 < n ∧ n < 32) (x : Word) (i : Nat), i < 32 →
    (rotr n x bounds).getLsbD i = x.getLsbD ((i + n) % 32)) ∧
  (∀ (a b : Nat) (ha : 0 < a ∧ a < 32) (hb : 0 < b ∧ b < 32) (hab : 0 < a + b ∧ a + b < 32) (x : Word),
    rotr a (rotr b x hb) ha = rotr (a + b) x hab) ∧
  ∀ (n : Nat) (bounds : 0 < n ∧ n < 32),
    rotr n 0 bounds = 0 ∧ rotr n 0xFFFFFFFF bounds = 0xFFFFFFFF ∧ (rotr n 1 bounds).toNat = 2 ^ (32 - n)

/-- `choice` and `majority`, bit by bit (R105, R106). -/
def Obligations.ChoiceAndMajorityPerBit : Prop :=
  ∀ (x y z : Word),
    (∀ i, i < 32 → (choice x y z).getLsbD i = if x.getLsbD i then y.getLsbD i else z.getLsbD i) ∧
    (∀ i, i < 32 → ((majority x y z).getLsbD i = true ↔
      2 ≤ (x.getLsbD i).toNat + (y.getLsbD i).toNat + (z.getLsbD i).toNat)) ∧
    choice x y z = (x &&& y) ||| (~~~x &&& z) ∧
    majority x y z = majority y x z ∧ majority x y z = majority x z y

/-- The rotations, the shift and the four sigmas distribute over exclusive-or; `choice` and `majority` do not; none of
the six distributes over addition (R111). -/
def Obligations.SigmasAreLinear : Prop :=
  (∀ (n : Nat) (bounds : 0 < n ∧ n < 32) (x y : Word),
    rotr n (x ^^^ y) bounds = rotr n x bounds ^^^ rotr n y bounds ∧ shr n (x ^^^ y) = shr n x ^^^ shr n y) ∧
  (∀ x y : Word,
    bigSigma0 (x ^^^ y) = bigSigma0 x ^^^ bigSigma0 y ∧ bigSigma1 (x ^^^ y) = bigSigma1 x ^^^ bigSigma1 y ∧
    smallSigma0 (x ^^^ y) = smallSigma0 x ^^^ smallSigma0 y ∧
    smallSigma1 (x ^^^ y) = smallSigma1 x ^^^ smallSigma1 y) ∧
  (∃ x y z x' y' z' : Word,
    choice (x ^^^ x') (y ^^^ y') (z ^^^ z') ≠ choice x y z ^^^ choice x' y' z') ∧
  (∃ x y z x' y' z' : Word,
    majority (x ^^^ x') (y ^^^ y') (z ^^^ z') ≠ majority x y z ^^^ majority x' y' z') ∧
  (∃ x y : Word, bigSigma0 (add32 [x, y]) ≠ add32 [bigSigma0 x, bigSigma0 y]) ∧
  (∃ x y : Word, bigSigma1 (add32 [x, y]) ≠ add32 [bigSigma1 x, bigSigma1 y]) ∧
  (∃ x y : Word, smallSigma0 (add32 [x, y]) ≠ add32 [smallSigma0 x, smallSigma0 y]) ∧
  (∃ x y : Word, smallSigma1 (add32 [x, y]) ≠ add32 [smallSigma1 x, smallSigma1 y]) ∧
  (∃ x y z x' y' z' : Word,
    choice (add32 [x, x']) (add32 [y, y']) (add32 [z, z']) ≠ add32 [choice x y z, choice x' y' z']) ∧
  ∃ x y z x' y' z' : Word,
    majority (add32 [x, x']) (add32 [y, y']) (add32 [z, z']) ≠ add32 [majority x y z, majority x' y' z']

/-! ## Byte order -/

/-- `bytes_be` and the big-endian reading are inverse to each other (R52, R53). For `v` from `2^(8n)` on, where the spec
gives `bytes_be` no value, the first clause states what the model's function gives (its choice, log entry 19). -/
def Obligations.BigEndianBytesInverse : Prop :=
  (∀ (v n j : Nat), j < n → (bytesBE v n)[j]? = some (BitVec.ofNat 8 (v >>> (8 * (n - 1 - j))))) ∧
  (∀ (v n : Nat), v < 2 ^ (8 * n) → natBE (bytesBE v n) = v) ∧
  (∀ (x : Word) (b0 b1 b2 b3 : Byte), bytesBE x.toNat 4 = [b0, b1, b2, b3] → be32 b0 b1 b2 b3 = x) ∧
  ∀ b0 b1 b2 b3 : Byte,
    (be32 b0 b1 b2 b3).toNat = b0.toNat * 2^24 + b1.toNat * 2^16 + b2.toNat * 2^8 + b3.toNat ∧
    bytesBE (be32 b0 b1 b2 b3).toNat 4 = [b0, b1, b2, b3]

/-- The sixteen words of a block after `LDBLK`: word `i` is made of bytes `4i .. 4i+3`, first byte most significant, so
byte 0 is bits 31:24 of `W[0]` and byte 63 bits 7:0 of `W[15]` (R54). -/
def Obligations.BlockBytesBecomeWords : Prop :=
  ∀ (b : Block) (s : State), ∃ t, exec (.ldblk b) s = .next t ∧
    (∀ (i : Nat) (_ : i < 16), t.w[i] = be32 b[4 * i] b[4 * i + 1] b[4 * i + 2] b[4 * i + 3]) ∧
    (∀ (i : Nat) (_ : i < 16) (j : Nat) (_ : j < 4), t.w[i].extractLsb' (8 * (3 - j)) 8 = b[4 * i + j]) ∧
    t.w[0].extractLsb' 24 8 = b[0] ∧ t.w[15].extractLsb' 0 8 = b[63]

/-- The digest codec is a bijection between states and 32-byte sequences (R170, R174). -/
def Obligations.DigestCodecBijective : Prop :=
  (∀ (st : Words8) (full : (encodeDigest st).length = 32), decodeDigest ⟨⟨encodeDigest st⟩, full⟩ = st) ∧
  (∀ d : Vector Byte 32, encodeDigest (decodeDigest d) = d.toList) ∧
  ∀ (st : Words8), (encodeDigest st).length = 32 ∧
    ∀ (i j : Nat) (_ : i < 8), j < 4 →
      (encodeDigest st)[4 * i + j]? = some (st[i].extractLsb' (8 * (3 - j)) 8)

/-! ## Padding Calculator -/

/-- The padding of a length: 0x80, the least number of zeros that brings the length to 56 modulo 64, the bit length;
and its size in every case (R120, R122). For lengths from `2^61` on, where the spec gives no padding, it states what the
model's function gives (its choice, log entry 19). -/
def Obligations.PaddingIsShortestToBlock : Prop :=
  ∀ len : Nat, ∃ k : Nat,
    padding len = 0x80 :: (List.replicate k 0x00 ++ bytesBE (len * 8) 8) ∧
    (len + 1 + k) % 64 = 56 ∧ (∀ j, j < k → (len + 1 + j) % 64 ≠ 56) ∧
    (k : Int) = ((55 : Int) - (len % 64 : Nat)) % 64 ∧
    (len % 64 ≤ 55 → k = 55 - len % 64 ∧ (padding len).length = 64 - len % 64) ∧
    (56 ≤ len % 64 → k = 119 - len % 64 ∧ (padding len).length = 128 - len % 64) ∧
    (padding len).length = 1 + k + 8 ∧ 9 ≤ (padding len).length ∧ (padding len).length ≤ 72 ∧
    (len + (padding len).length) % 64 = 0

/-- The last eight bytes of a padding decode to the length in bits, and the padded length is whole blocks (R127). -/
def Obligations.PaddingEndsInBitLength : Prop :=
  ∀ len : Nat, len < 2 ^ 61 →
    (len + (padding len).length) % 64 = 0 ∧
    natBE ((padding len).drop ((padding len).length - 8)) = len * 8

/-- `PAD L` answers the padding of `L`, or InvalidLength exactly when any of bits 63:61 of `L` is set, and changes
nothing else in either case (R121, R123, R124). -/
def Obligations.PadResult : Prop :=
  ∀ (l : BitVec 64) (s : State),
    encode (.pad l) = 0x01 :: bytesBE l.toNat 8 ∧
    (l.toNat < 2 ^ 61 → exec (.pad l) s =
      .next { s with
        resp := s.resp ++ 0x00 :: BitVec.ofNat 8 (padding l.toNat).length :: padding l.toNat }) ∧
    (2 ^ 61 ≤ l.toNat → exec (.pad l) s = .next { s with resp := s.resp ++ [0x01] }) ∧
    (2 ^ 61 ≤ l.toNat ↔ l.getLsbD 63 = true ∨ l.getLsbD 62 = true ∨ l.getLsbD 61 = true)

/-! ## Message Scheduler -/

/-- The schedule of a block: the block's words, then the recurrence (R130). -/
def Obligations.ScheduleObeysRecurrence : Prop :=
  ∀ b : Block,
    (∀ (t : Nat) (_ : t < 16), (sched b)[t] = be32 b[4 * t] b[4 * t + 1] b[4 * t + 2] b[4 * t + 3]) ∧
    ∀ (t : Nat) (_ : 16 ≤ t ∧ t ≤ 63),
      (sched b)[t] = add32 [smallSigma1 (sched b)[t - 2], (sched b)[t - 7],
        smallSigma0 (sched b)[t - 15], (sched b)[t - 16]]

/-- `LDBLK b`: the first sixteen words, `WCNT = 16`, the compression abandoned, nothing else (R131). -/
def Obligations.LdblkResult : Prop :=
  ∀ (b : Block) (s : State),
    encode (.ldblk b) = 0x02 :: b.toList ∧
    ∃ t, exec (.ldblk b) s = .next t ∧
      (∀ (i : Nat) (_ : i < 16), t.w[i] = be32 b[4 * i] b[4 * i + 1] b[4 * i + 2] b[4 * i + 3]) ∧
      (∀ (i : Nat) (_ : i < 64), 16 ≤ i → t.w[i] = s.w[i]) ∧
      t.wcnt = 16 ∧ t.av = false ∧ t.t = 0 ∧ t.resp = s.resp ++ [0x00] ∧
      t.h = s.h ∧ t.v = s.v ∧ t.hv = s.hv ∧ t.cmd = s.cmd ∧ t.resetPending = s.resetPending ∧ t.draws = s.draws

/-- `WSTEP`: the next schedule word from the four earlier ones, nothing else; SequenceError and nothing changed when no
block is loaded or the schedule is complete (R132). -/
def Obligations.WstepResult : Prop :=
  ∀ s : State,
    encode .wstep = [0x03] ∧
    (∀ (n : Nat) (_ : 16 ≤ n ∧ n ≤ 63), s.wcnt.toNat = n → ∃ t, exec .wstep s = .next t ∧
      t.w[n] = add32 [smallSigma1 s.w[n - 2], s.w[n - 7], smallSigma0 s.w[n - 15], s.w[n - 16]] ∧
      (∀ (i : Nat) (_ : i < 64), i ≠ n → t.w[i] = s.w[i]) ∧
      t.wcnt.toNat = n + 1 ∧ t.resp = s.resp ++ [0x00] ∧
      t.h = s.h ∧ t.v = s.v ∧ t.t = s.t ∧ t.hv = s.hv ∧ t.av = s.av ∧
      t.cmd = s.cmd ∧ t.resetPending = s.resetPending ∧ t.draws = s.draws) ∧
    (s.wcnt.toNat < 16 ∨ 63 < s.wcnt.toNat → exec .wstep s = .next { s with resp := s.resp ++ [0x05] })

/-- `SCHED b` leaves the whole schedule of `b` and never faults; it does what `LDBLK b` and 48 `WSTEP` do, but for the
number of responses; a further `WSTEP` is refused (R133). -/
def Obligations.SchedResult : Prop :=
  ∀ (b : Block) (s : State),
    encode (.sched b) = 0x04 :: b.toList ∧
    exec (.sched b) s =
      .next { s with w := sched b, wcnt := 64, av := false, t := 0, resp := s.resp ++ [0x00] } ∧
    ∃ t, execSeq (schedSteps b) s = .next t ∧ t.resp = s.resp ++ List.replicate 49 0x00 ∧
      exec (.sched b) s = .next { t with resp := s.resp ++ [0x00] } ∧
      exec .wstep t = .next { t with resp := t.resp ++ [0x05] }

/-! ## Compression Engine -/

/-- The engine as a function: 64 rounds, each from the values before it, then word-wise addition (R145). -/
def Obligations.CompressIsSixtyFourRounds : Prop :=
  ∀ (w : Schedule) (st : Words8), ∃ v : Nat → Words8, v 0 = st ∧
    (∀ (t : Nat) (_ : t < 64),
      let t1 := add32 [(v t)[7], bigSigma1 (v t)[4], choice (v t)[4] (v t)[5] (v t)[6], K[t], w[t]]
      let t2 := add32 [bigSigma0 (v t)[0], majority (v t)[0] (v t)[1] (v t)[2]]
      (v (t + 1))[0] = add32 [t1, t2] ∧ (v (t + 1))[1] = (v t)[0] ∧ (v (t + 1))[2] = (v t)[1] ∧
      (v (t + 1))[3] = (v t)[2] ∧ (v (t + 1))[4] = add32 [(v t)[3], t1] ∧ (v (t + 1))[5] = (v t)[4] ∧
      (v (t + 1))[6] = (v t)[5] ∧ (v (t + 1))[7] = (v t)[6]) ∧
    ∀ (i : Nat) (_ : i < 8), (compress w st)[i] = add32 [st[i], (v 64)[i]]

/-- The round constants are the first 32 bits of the fractional parts of the cube roots of the first 64 primes: `K[i]` is
the integer cube root of `p * 2^96` modulo `2^32`, `p` the prime of index `i` (R146). -/
def Obligations.RoundConstantsAreCubeRoots : Prop :=
  let primes : List Nat :=
    [2, 3, 5, 7, 11, 13, 17, 19, 23, 29, 31, 37, 41, 43, 47, 53, 59, 61, 67, 71, 73, 79, 83, 89, 97, 101, 103, 107,
     109, 113, 127, 131] ++
    [137, 139, 149, 151, 157, 163, 167, 173, 179, 181, 191, 193, 197, 199, 211, 223, 227, 229, 233, 239, 241, 251,
     257, 263, 269, 271, 277, 281, 283, 293, 307, 311]
  primes.length = 64 ∧ primes.Pairwise (· < ·) ∧ (∀ p, p ≤ 311 → (p ∈ primes ↔ Nat.Prime p)) ∧
  ∀ (i : Nat) (_ : i < 64) (p : Nat), primes[i]? = some p →
    ∃ root : Nat, root ^ 3 ≤ p * 2 ^ 96 ∧ p * 2 ^ 96 < (root + 1) ^ 3 ∧ K[i].toNat = root % 2 ^ 32

/-- `CINIT` copies `H` into `V` and starts a compression; SequenceError when `H` holds no value (R147). -/
def Obligations.CinitResult : Prop :=
  ∀ s : State,
    encode .cinit = [0x05] ∧
    (s.hv = true → exec .cinit s = .next { s with v := s.h, av := true, t := 0, resp := s.resp ++ [0x00] }) ∧
    (s.hv = false → exec .cinit s = .next { s with resp := s.resp ++ [0x05] })

/-- `ROUND` performs round `T` on `V` and changes nothing else but `T`; SequenceError and nothing changed when no
compression is in progress, all rounds are done, or the schedule word is missing; once `WSTEP` has supplied the missing
word the same `ROUND` succeeds (R148). -/
def Obligations.RoundResult : Prop :=
  ∀ s : State,
    encode .round = [0x06] ∧
    (∀ (n : Nat) (_ : n < 64), s.t.toNat = n → s.av = true → n < s.wcnt.toNat → ∃ t, exec .round s = .next t ∧
      (let t1 := add32 [s.v[7], bigSigma1 s.v[4], choice s.v[4] s.v[5] s.v[6], K[n], s.w[n]]
      let t2 := add32 [bigSigma0 s.v[0], majority s.v[0] s.v[1] s.v[2]]
      t.v[0] = add32 [t1, t2] ∧ t.v[1] = s.v[0] ∧ t.v[2] = s.v[1] ∧ t.v[3] = s.v[2] ∧
      t.v[4] = add32 [s.v[3], t1] ∧ t.v[5] = s.v[4] ∧ t.v[6] = s.v[5] ∧ t.v[7] = s.v[6]) ∧
      t.t.toNat = n + 1 ∧ t.resp = s.resp ++ [0x00] ∧
      t.h = s.h ∧ t.w = s.w ∧ t.wcnt = s.wcnt ∧ t.hv = s.hv ∧ t.av = s.av ∧
      t.cmd = s.cmd ∧ t.resetPending = s.resetPending ∧ t.draws = s.draws) ∧
    (s.av = false ∨ 64 ≤ s.t.toNat ∨ s.wcnt.toNat ≤ s.t.toNat →
      exec .round s = .next { s with resp := s.resp ++ [0x05] }) ∧
    (s.av = true → s.t = s.wcnt → 16 ≤ s.wcnt.toNat → s.wcnt.toNat ≤ 63 →
      exec .round s = .next { s with resp := s.resp ++ [0x05] } ∧
      ∃ u t, exec .wstep s = .next u ∧ exec .round u = .next t ∧ t.t = s.t + 1 ∧ t.resp = s.resp ++ [0x00, 0x00])

/-- `CFIN` adds `V` into `H` word by word and ends the compression; SequenceError and nothing changed before 64 rounds
are done (R149). -/
def Obligations.CfinResult : Prop :=
  ∀ s : State,
    encode .cfin = [0x07] ∧
    (s.av = true → s.t.toNat = 64 → ∃ t, exec .cfin s = .next t ∧
      (∀ (i : Nat) (_ : i < 8), t.h[i] = add32 [s.h[i], s.v[i]]) ∧
      t.av = false ∧ t.t = 0 ∧ t.resp = s.resp ++ [0x00] ∧
      t.v = s.v ∧ t.w = s.w ∧ t.wcnt = s.wcnt ∧ t.hv = s.hv ∧
      t.cmd = s.cmd ∧ t.resetPending = s.resetPending ∧ t.draws = s.draws) ∧
    (s.av = false ∨ s.t.toNat ≠ 64 → exec .cfin s = .next { s with resp := s.resp ++ [0x05] })

/-- `COMPRESS` is the compression function on the schedule in `W`; it does what `CINIT`, 64 `ROUND` and `CFIN` do, but
for the number of responses; SequenceError and nothing written, not even `V`, when its check fails (R150). -/
def Obligations.CompressResult : Prop :=
  ∀ s : State,
    encode .compress = [0x08] ∧
    (s.hv = true → s.wcnt.toNat = 64 →
      exec .compress s = .next { s with
        h := compress s.w s.h, v := rounds 64 s.w s.h, av := false, t := 0, resp := s.resp ++ [0x00] } ∧
      ∃ t, execSeq compressSteps s = .next t ∧ t.resp = s.resp ++ List.replicate 66 0x00 ∧
        exec .compress s = .next { t with resp := s.resp ++ [0x00] }) ∧
    (s.hv = false ∨ s.wcnt.toNat ≠ 64 → exec .compress s = .next { s with resp := s.resp ++ [0x05] })

/-- `BLOCK b` schedules and compresses one block; it does what `SCHED b` and `COMPRESS` do, but for the number of
responses; SequenceError and nothing written, not even `W`, when `H` holds no value, the whole command taken from the
stream all the same (R151). -/
def Obligations.BlockResult : Prop :=
  ∀ (b : Block) (s : State),
    encode (.block b) = 0x09 :: b.toList ∧
    (s.hv = true →
      exec (.block b) s = .next { s with
        w := sched b, wcnt := 64, h := compress (sched b) s.h, v := rounds 64 (sched b) s.h, av := false, t := 0,
        resp := s.resp ++ [0x00] } ∧
      ∃ t, execSeq [.sched b, .compress] s = .next t ∧ t.resp = s.resp ++ [0x00, 0x00] ∧
        exec (.block b) s = .next { t with resp := s.resp ++ [0x00] }) ∧
    (s.hv = false → exec (.block b) s = .next { s with resp := s.resp ++ [0x05] } ∧
      ∀ rest : List Byte, s.resetPending = false → s.cmd = 0x09 :: (b.toList ++ rest) →
        step s = .next { s with cmd := rest, resp := s.resp ++ [0x05] })

/-- Whatever way rounds and schedule steps are interleaved after loading a block and starting, once 64 rounds are done
`CFIN` leaves the compression of that block, and changes no other store (R148, R149, decision D25). -/
def Obligations.InterleavedStepsGiveCompression : Prop :=
  ∀ (s t : State) (b : Block) (steps : List Instr), s.hv = true → (∀ i ∈ steps, i = .wstep ∨ i = .round) →
    execSeq (.ldblk b :: .cinit :: steps) s = .next t → t.t.toNat = 64 →
    exec .cfin t = .next { t with
      h := compress (sched b) s.h, av := false, t := 0, resp := t.resp ++ [0x00] }

/-- Rewriting `H` or the block abandons a compression in progress, so that it cannot be continued; `WSTEP` rewrites no
word a round has read (R256). -/
def Obligations.ReloadingAbandonsCompression : Prop :=
  (∀ (i : Instr) (s t : State),
    (i = .init ∨ i = .compress ∨ (∃ d, i = .dec d) ∨ ∃ b, i = .ldblk b ∨ i = .sched b ∨ i = .block b) →
    exec i s = .next t → t.resp = s.resp ++ [0x00] →
    t.av = false ∧ t.t = 0 ∧
    exec .round t = .next { t with resp := t.resp ++ [0x05] } ∧
    exec .cfin t = .next { t with resp := t.resp ++ [0x05] }) ∧
  ∀ (last : Option Block) (s t : State), s.Inv last → exec .wstep s = .next t →
    t.h = s.h ∧ t.v = s.v ∧ t.av = s.av ∧ t.t = s.t ∧
    ∀ (i : Nat) (_ : i < 64), i < s.t.toNat → t.w[i] = s.w[i]

/-! ## Digest Codec and system commands -/

/-- `ENC` answers `H` as 32 big-endian bytes and changes nothing; SequenceError when `H` holds no value (R173). -/
def Obligations.EncResult : Prop :=
  ∀ s : State,
    encode .enc = [0x0A] ∧
    (s.hv = true → exec .enc s = .next { s with
      resp := s.resp ++ (0x00 : Byte) ::
        (bytesBE s.h[0].toNat 4 ++ bytesBE s.h[1].toNat 4 ++ bytesBE s.h[2].toNat 4 ++ bytesBE s.h[3].toNat 4 ++
          bytesBE s.h[4].toNat 4 ++ bytesBE s.h[5].toNat 4 ++ bytesBE s.h[6].toNat 4 ++ bytesBE s.h[7].toNat 4) }) ∧
    (s.hv = false → exec .enc s = .next { s with resp := s.resp ++ [0x05] })

/-- `DEC d` loads `H` from 32 bytes and abandons the compression; every other count is InvalidDigestLength, takes the
whole command from the stream and changes nothing else (R172). For terms of more than 255 bytes, which no byte sequence
encodes (R85), the first clause (their bytes) and the last (their answer) state the model's choice (log entry 12). -/
def Obligations.DecResult : Prop :=
  ∀ (d : List Byte) (s : State),
    encode (.dec d) = 0x0B :: BitVec.ofNat 8 d.length :: d ∧
    (∀ _ : d.length = 32, ∃ t, exec (.dec d) s = .next t ∧
      (∀ (i : Nat) (_ : i < 8), t.h[i] = be32 d[4 * i] d[4 * i + 1] d[4 * i + 2] d[4 * i + 3]) ∧
      t.hv = true ∧ t.av = false ∧ t.t = 0 ∧ t.resp = s.resp ++ [0x00] ∧
      t.v = s.v ∧ t.w = s.w ∧ t.wcnt = s.wcnt ∧ t.cmd = s.cmd ∧ t.resetPending = s.resetPending ∧
      t.draws = s.draws) ∧
    (d.length ≠ 32 → exec (.dec d) s = .next { s with resp := s.resp ++ [0x03] } ∧
      ∀ (n : Byte) (rest : List Byte), n.toNat = d.length → s.resetPending = false → s.cmd = 0x0B :: n :: (d ++ rest) →
        step s = .next { s with cmd := rest, resp := s.resp ++ [0x03] })

/-- `INIT` loads the fixed initial State and abandons the compression; it does what `DEC` of that State's bytes does
(R171). -/
def Obligations.InitResult : Prop :=
  ∀ s : State,
    encode .init = [0x0C] ∧
    exec .init s = .next { s with
      h := #v[0x6a09e667, 0xbb67ae85, 0x3c6ef372, 0xa54ff53a, 0x510e527f, 0x9b05688c, 0x1f83d9ab, 0x5be0cd19],
      hv := true, av := false, t := 0, resp := s.resp ++ [0x00] } ∧
    exec .init s = exec (.dec
      [0x6a, 0x09, 0xe6, 0x67, 0xbb, 0x67, 0xae, 0x85, 0x3c, 0x6e, 0xf3, 0x72, 0xa5, 0x4f, 0xf5, 0x3a,
       0x51, 0x0e, 0x52, 0x7f, 0x9b, 0x05, 0x68, 0x8c, 0x1f, 0x83, 0xd9, 0xab, 0x5b, 0xe0, 0xcd, 0x19]) s

/-- `DEC d` then `ENC` returns `d`, for every 32-byte `d` (R204). -/
def Obligations.DecThenEncReturnsDigest : Prop :=
  ∀ (d : List Byte) (s : State), d.length = 32 →
    ∃ t, execSeq [.dec d, .enc] s = .next t ∧ t.resp = s.resp ++ [0x00] ++ 0x00 :: d

/-- `STAT` answers `STATUS`, most significant byte first, and changes nothing; the fields of `STATUS` are `HV`, `AV`,
`WCNT` and `T` (R30, R185). -/
def Obligations.StatResult : Prop :=
  ∀ s : State,
    encode .stat = [0x0D] ∧
    exec .stat s = .next { s with
      resp := s.resp ++ [0x00, s.status.extractLsb' 8 8, s.status.extractLsb' 0 8] } ∧
    s.status.getLsbD 15 = s.hv ∧ s.status.getLsbD 14 = s.av ∧
    s.status.extractLsb' 7 7 = s.wcnt ∧ s.status.extractLsb' 0 7 = s.t ∧
    s.status.toNat = s.hv.toNat * 2^15 + s.av.toNat * 2^14 + s.wcnt.toNat * 2^7 + s.t.toNat

/-- `RESET` clears the flags and the counters, answers OK and disturbs neither stream (R186, R252). What the words of
`H`, `V`, `W` are afterwards is unspecified, and not said. -/
def Obligations.ResetResult : Prop :=
  ∀ s : State,
    encode .reset = [0x0E] ∧
    ∃ t, exec .reset s = .next t ∧ t.hv = false ∧ t.av = false ∧ t.wcnt = 0 ∧ t.t = 0 ∧
      t.resp = s.resp ++ [0x00] ∧ t.cmd = s.cmd ∧ t.resetPending = s.resetPending

/-- `PAD`, `STAT` and `ENC` write no store, flag or counter, so asking again gives the same answer (R62, R255). -/
def Obligations.ReadingCommandsChangeNothing : Prop :=
  ∀ (i : Instr) (s : State), (i = .stat ∨ i = .enc ∨ ∃ l, i = .pad l) →
    ∃ answer, exec i s = .next { s with resp := s.resp ++ answer } ∧
      exec i { s with resp := s.resp ++ answer } = .next { s with resp := s.resp ++ answer ++ answer }

/-! ## Faults -/

/-- SequenceError is raised exactly in the cases of R226's table, in every state that meets the invariants of R31. -/
def Obligations.SequenceErrorExactly : Prop :=
  ∀ (last : Option Block) (s : State) (i : Instr), s.Inv last →
    (exec i s = .next { s with resp := s.resp ++ [0x05] } ↔ sequenceCause i s)

/-- Each command can raise the one fault of its row of R227's table and no other: it ends OK, or it raises that fault
on the state from before it; InvalidLength and InvalidDigestLength depend on the operand alone (R227, R228). For `DEC`
terms of more than 255 bytes, which no byte sequence encodes (R85), it states the model's choice (log entry 12). -/
def Obligations.FaultsPerCommand : Prop :=
  (∀ (i : Instr) (s : State),
    (∃ (s' : State) (data : List Byte), exec i s = .next (s'.send (0x00 :: data)) ∧ s'.resp = s.resp) ∨
    ∃ f, faultColumn i = some f ∧ exec i s = .next (s.send [f.code])) ∧
  (∀ (l : BitVec 64) (s : State), exec (.pad l) s = .next (s.send [0x01]) ↔ 2 ^ 61 ≤ l.toNat) ∧
  ∀ (d : List Byte) (s : State), exec (.dec d) s = .next (s.send [0x03]) ↔ d.length ≠ 32

/-- Fault entry: when a command's response opens with a status other than OK, its bytes have been taken from the
stream, the response is that one byte, and the whole state is what it was (R224). -/
def Obligations.FaultChangesNothing : Prop :=
  ∀ (s t : State) (i : Instr) (rest : List Byte) (status : Byte) (data : List Byte),
    WellFormed i = true → s.resetPending = false → s.cmd = encode i ++ rest → step s = .next t →
    t.resp = s.resp ++ status :: data → status ≠ 0x00 →
    data = [] ∧ t = { s with cmd := rest, resp := s.resp ++ [status] }

/-- Exactly one response per command: a status byte; after OK the data bytes of R82's table; after a fault none, and no
state changed (R80, R82). -/
def Obligations.OneResponsePerCommand : Prop :=
  ∀ (i : Instr) (s : State), ∃ t status data, exec i s = .next t ∧ t.resp = s.resp ++ status :: data ∧
    (status = 0x00 → data.length = dataLength i) ∧
    (status ≠ 0x00 → data = [] ∧ t = { s with resp := s.resp ++ [status] }) ∧
    (i = .enc → status = 0x00 → data = encodeDigest s.h) ∧
    (i = .stat → status = 0x00 ∧ data = [s.status.extractLsb' 8 8, s.status.extractLsb' 0 8]) ∧
    ∀ l, i = .pad l → status = 0x00 →
      ∃ padLen, data = padLen :: padding l.toNat ∧ (padding l.toNat).length = padLen.toNat ∧
        9 ≤ padLen.toNat ∧ padLen.toNat ≤ 72

/-! ## Reset and the whole machine -/

/-- Only reset, by the event or by the command, takes `HV` from 1 to 0 or `WCNT` to 0 (R253). -/
def Obligations.OnlyResetInvalidates : Prop :=
  ∀ s t : State, step s = .next t → (s.hv = true ∧ t.hv = false) ∨ (s.wcnt ≠ 0 ∧ t.wcnt = 0) →
    s.resetPending = true ∨ ∃ rest, decode s.cmd = .command .reset rest

/-- In a reset state, whatever words it holds, `STATUS` is 0 and every command that would read a store that holds no
value is refused (R38, R254). -/
def Obligations.ResetStateRefusesReads : Prop :=
  State.reset.IsReset ∧
  ∀ s : State, s.IsReset → s.status = 0 ∧
    ∀ i : Instr, (i ∈ [.wstep, .cinit, .round, .cfin, .compress, .enc] ∨ ∃ b, i = .block b) →
      exec i s = .next { s with resp := s.resp ++ [0x05] }

/-- Every reset state meets the invariants of R31. -/
def Obligations.ResetStateMeetsInvariants : Prop :=
  State.reset.IsReset ∧ ∀ s : State, s.IsReset → s.Inv none

/-- Every step, from any state that meets the invariants of R31, gives a state that meets them. -/
def Obligations.StepKeepsInvariants : Prop :=
  ∀ (last : Option Block) (s s' : State), s.Inv last → step s = .next s' → s'.Inv (loadedByStep last s)

/-- The invariants of R31 hold in every state reachable from reset by any sequence of commands, faulting or not, and
whatever the host does in between. -/
def Obligations.ReachableStatesMeetInvariants : Prop :=
  ∀ (last : Option Block) (s : State), Reachable last s → s.Inv last

/-- `CFIN` only ever produces the compression of the block last loaded, from the state in `H` (R256, decision D14). -/
def Obligations.CfinCompressesTheLoadedBlock : Prop :=
  ∀ (last : Option Block) (s : State), Reachable last s → s.av = true → s.t.toNat = 64 →
    ∃ b, last = some b ∧
      exec .cfin s = .next { s with
        h := compress (sched b) s.h, av := false, t := 0, resp := s.resp ++ [0x00] }

/-- The words the spec leaves unspecified cannot be observed: two states that differ only in words no rule reads go on
alike for any number of steps, so any two reset states do (R38). -/
def Obligations.UnspecifiedWordsUnobservable : Prop :=
  (∀ s₁ s₂ : State, s₁.IsReset → s₂.IsReset → s₁.cmd = s₂.cmd → s₁.resp = s₂.resp →
    s₁.resetPending = s₂.resetPending → s₁.Alike s₂) ∧
  ∀ (n : Nat) (s₁ s₂ : State), s₁.Alike s₂ → EndAlike (Sys2Proof.core.run n s₁) (Sys2Proof.core.run n s₂)

/-- A step of one copy of the block changes that copy alone (R36, R236). -/
def Obligations.CopiesDoNotInterfere : Prop :=
  ∀ (k : Nat) (c c' : Copies), c.stepCopy k = some c' →
    c'.blocks.length = c.blocks.length ∧
    (∀ j, j ≠ k → c'.blocks[j]? = c.blocks[j]?) ∧
    ∃ s s', c.blocks[k]? = some s ∧ step s = .next s' ∧ c'.blocks[k]? = some s'

/-! ## Chaining and the host procedures -/

/-- After seeding `H` with `INIT` or `DEC d`, a sequence of `BLOCK` commands folds the compression over the blocks
(R153). -/
def Obligations.BlocksChainTheState : Prop :=
  ∀ (bs : List Block) (s : State),
    (∃ t, execSeq (.init :: bs.map .block) s = .next t ∧ t.hv = true ∧
      t.h = bs.foldl (fun st b => compress (sched b) st) IV) ∧
    ∀ d : Vector Byte 32, ∃ t, execSeq (.dec d.toList :: bs.map .block) s = .next t ∧ t.hv = true ∧
      t.h = bs.foldl (fun st b => compress (sched b) st) (decodeDigest d)

/-- The Block Splitter: `len(M) / 64` blocks that are `M` cut up in order, or MisalignedMessage (R191). -/
def Obligations.SplitCutsInOrder : Prop :=
  ∀ m : List Byte,
    (m.length % 64 ≠ 0 → split m = .error .misalignedMessage) ∧
    (m.length % 64 = 0 → ∃ bs, split m = .ok bs ∧ bs.length = m.length / 64 ∧ bs.flatMap Vector.toList = m)

/-- The host procedure `SHA256`, run on an idle block in whatever state, returns the hash of the message, 32 bytes that
depend on the message alone, and leaves the block idle; a message of `2^61` bytes or more is InvalidLength
(R192, R198, R200). On a block that is not idle it returns nothing and leaves the block as it was: the model's choice,
log entry 14. -/
def Obligations.Sha256ProcedureReturnsHash : Prop :=
  (∀ (m : List Byte) (s : State), s.idle = false → m.length < 2 ^ 64 →
    sha256Proc m s = .error .noResponse s) ∧
  ∀ (m : List Byte) (s : State), s.idle = true →
    (m.length < 2 ^ 61 → ∃ s', sha256Proc m s = .ok (sha256 m) s' ∧ (sha256 m).length = 32 ∧ s'.idle = true ∧
      ((m ++ padding m.length).length / 64 =
        if m.length % 64 ≤ 55 then m.length / 64 + 1 else m.length / 64 + 2)) ∧
    (2 ^ 61 ≤ m.length → ∃ s', sha256Proc m s = .error (.condition .invalidLength) s')

/-- The known answers of the document: the hashes of the empty message and of "abc" (R199). -/
def Obligations.KnownAnswers : Prop :=
  sha256 [] =
    [0xe3, 0xb0, 0xc4, 0x42, 0x98, 0xfc, 0x1c, 0x14, 0x9a, 0xfb, 0xf4, 0xc8, 0x99, 0x6f, 0xb9, 0x24,
     0x27, 0xae, 0x41, 0xe4, 0x64, 0x9b, 0x93, 0x4c, 0xa4, 0x95, 0x99, 0x1b, 0x78, 0x52, 0xb8, 0x55] ∧
  sha256 [0x61, 0x62, 0x63] =
    [0xba, 0x78, 0x16, 0xbf, 0x8f, 0x01, 0xcf, 0xea, 0x41, 0x41, 0x40, 0xde, 0x5d, 0xae, 0x22, 0x23,
     0xb0, 0x03, 0x61, 0xa3, 0x96, 0x17, 0x7a, 0x9c, 0xb4, 0x10, 0xff, 0x61, 0xf2, 0x00, 0x15, 0xad]

/-- The padding with its length field overridden to the total length is the ordinary padding of the total length, and
suffix and padding are whole blocks (R194). For totals from `2^61` on, where the spec gives no padding, it states what the
model's function gives (its choice, log entry 19). -/
def Obligations.OverriddenPaddingIsOrdinary : Prop :=
  ∀ len suffixLen : Nat,
    let total := len + (padding len).length + suffixLen
    (padding suffixLen).take ((padding suffixLen).length - 8) ++ bytesBE (total * 8) 8 = padding total ∧
    (suffixLen + (padding total).length) % 64 = 0

/-- Length extension, "the critical property": from the digest and the length of a message alone, `LENEXT` returns the
digest of the message, its padding and the suffix (R203). -/
def Obligations.LengthExtensionMatchesHash : Prop :=
  ∀ (m suffix : List Byte) (s : State), s.idle = true →
    m.length + (padding m.length).length + suffix.length < 2 ^ 61 →
    ∃ s', lenextProc (sha256 m) m.length suffix s =
      .ok (padding m.length ++ suffix, sha256 (m ++ padding m.length ++ suffix)) s'

/-- The errors of `LENEXT`, in the document's order: a length that is negative or not representable, a total that is not
representable, then a digest that is not 32 bytes (R196). -/
def Obligations.LengthExtensionErrors : Prop :=
  ∀ (d suffix : List Byte) (s : State), s.idle = true →
    (∀ len : Int, len < 0 ∨ 2 ^ 61 ≤ len →
      ∃ s', lenextProc d len suffix s = .error (.condition .invalidLength) s') ∧
    ∀ len : Nat, len < 2 ^ 61 →
      (2 ^ 61 ≤ len + (padding len).length + suffix.length →
        ∃ s', lenextProc d len suffix s = .error (.condition .invalidLength) s') ∧
      (len + (padding len).length + suffix.length < 2 ^ 61 → d.length ≠ 32 →
        ∃ s', lenextProc d len suffix s = .error (.condition .invalidDigestLength) s')
end

