-- ==== Sys2Proof/Laws/Bytes.lean ====
section
/-! SUPPORT. Big-endian bytes and numbers are inverse to each other (spec/20_memory.md R51 to R56), and what `recv`
takes from a stream (spec/30_encoding.md R70). -/

namespace Sys2Proof.Machine

@[simp] theorem bytesBE_length (v n : Nat) : (bytesBE v n).length = n := by
  simp [bytesBE]

/-- Byte `j` of `bytes_be(v, n)` (R53). -/
theorem bytesBE_getElem (v n j : Nat) (hj : j < (bytesBE v n).length) :
    (bytesBE v n)[j] = BitVec.ofNat 8 (v >>> (8 * (n - 1 - j))) := by
  simp [bytesBE]

/-- The least significant byte comes last. -/
theorem bytesBE_succ (v n : Nat) : bytesBE v (n + 1) = bytesBE (v / 2 ^ 8) n ++ [BitVec.ofNat 8 v] := by
  unfold bytesBE
  rw [List.range_succ, List.map_append]
  congr 1
  · apply List.map_congr_left
    intro j hj
    have hj : j < n := by simpa using hj
    have : 8 * (n + 1 - 1 - j) = 8 + 8 * (n - 1 - j) := by omega
    rw [this, Nat.shiftRight_add, Nat.shiftRight_eq_div_pow v 8]
  · simp

@[simp] theorem natBE_nil : natBE [] = 0 := rfl

theorem natBE_append_singleton (bs : List Byte) (b : Byte) : natBE (bs ++ [b]) = natBE bs * 2 ^ 8 + b.toNat := by
  simp [natBE, List.foldl_append]

theorem natBE_lt (bs : List Byte) : natBE bs < 2 ^ (8 * bs.length) := by
  induction bs using List.reverseRecOn with
  | nil => simp
  | append_singleton bs b ih =>
    have hb := b.isLt
    rw [natBE_append_singleton, List.length_append, List.length_singleton, Nat.mul_add, Nat.pow_add]
    omega

/-- Reading back the bytes of a number gives the number, as far as they hold it (R53). -/
theorem natBE_bytesBE (v n : Nat) : natBE (bytesBE v n) = v % 2 ^ (8 * n) := by
  induction n generalizing v with
  | zero => simp [bytesBE, Nat.mod_one]
  | succ n ih =>
    have hpow : 2 ^ (8 * (n + 1)) = 2 ^ 8 * 2 ^ (8 * n) := by rw [← Nat.pow_add]; congr 1; omega
    rw [bytesBE_succ, natBE_append_singleton, ih, hpow, Nat.mod_mul, BitVec.toNat_ofNat]
    omega

/-- Writing out the number some bytes stand for gives the bytes (R53). -/
theorem bytesBE_natBE (bs : List Byte) : bytesBE (natBE bs) bs.length = bs := by
  induction bs using List.reverseRecOn with
  | nil => simp [bytesBE]
  | append_singleton bs b ih =>
    have hb := b.isLt
    rw [natBE_append_singleton, List.length_append, List.length_singleton, bytesBE_succ]
    have hdiv : (natBE bs * 2 ^ 8 + b.toNat) / 2 ^ 8 = natBE bs := by omega
    have hlast : BitVec.ofNat 8 (natBE bs * 2 ^ 8 + b.toNat) = b := by
      apply BitVec.eq_of_toNat_eq
      rw [BitVec.toNat_ofNat]
      omega
    rw [hdiv, ih, hlast]

theorem be32_eq_natBE (a b c d : Byte) : be32 a b c d = BitVec.ofNat 32 (natBE [a, b, c, d]) := by
  have e : natBE [a, b, c, d] = a.toNat * 2^24 + b.toNat * 2^16 + c.toNat * 2^8 + d.toNat := by
    simp only [natBE, List.foldl_cons, List.foldl_nil]
    ring
  rw [be32, e]

theorem be32_toNat (a b c d : Byte) : (be32 a b c d).toNat = natBE [a, b, c, d] := by
  have h := natBE_lt [a, b, c, d]
  rw [be32_eq_natBE, BitVec.toNat_ofNat]
  exact Nat.mod_eq_of_lt (by simpa using h)

/-- `bytes_be(BE32(b0,b1,b2,b3), 4) = (b0, b1, b2, b3)` (R53). -/
@[simp] theorem bytesBE_be32 (a b c d : Byte) : bytesBE (be32 a b c d).toNat 4 = [a, b, c, d] := by
  rw [be32_toNat]
  exact bytesBE_natBE [a, b, c, d]

/-- A word is `BE32` of the four bytes it writes out (R53). -/
theorem be32_of_bytesBE (x : Word) (a b c d : Byte) (h : bytesBE x.toNat 4 = [a, b, c, d]) : be32 a b c d = x := by
  apply BitVec.eq_of_toNat_eq
  rw [be32_toNat, ← h, natBE_bytesBE]
  exact Nat.mod_eq_of_lt x.isLt

theorem lengthOperand_toNat (l : Vector Byte 8) : (lengthOperand l).toNat = natBE l.toList := by
  have h := natBE_lt l.toList
  have hl : l.toList = [l[0], l[1], l[2], l[3], l[4], l[5], l[6], l[7]] := by
    apply List.ext_getElem
    · simp
    · intro i h₁ h₂
      simp at h₂
      interval_cases i <;> rfl
  have e : natBE l.toList = l[0].toNat * 2^56 + l[1].toNat * 2^48 + l[2].toNat * 2^40 + l[3].toNat * 2^32
      + l[4].toNat * 2^24 + l[5].toNat * 2^16 + l[6].toNat * 2^8 + l[7].toNat := by
    rw [hl]
    simp only [natBE, List.foldl_cons, List.foldl_nil]
    ring
  rw [lengthOperand, BitVec.toNat_ofNat, ← e]
  rw [Vector.length_toList] at h
  exact Nat.mod_eq_of_lt h

/-- Exactly `n` bytes in front of others are what `recv n` takes (R70). -/
theorem recv_append (n : Nat) (x : Vector Byte n) (rest : List Byte) :
    recv n (x.toList ++ rest) = some (x, rest) := by
  have hx : x.toList.length = n := by simp
  unfold recv
  rw [dif_pos (by simp)]
  congr 2
  · apply Vector.toList_inj.mp
    simp [Vector.toList]
  · rw [List.drop_append_of_le_length (by omega), List.drop_of_length_le (by omega), List.nil_append]

/-- The same, for a list of the right length. -/
theorem recv_list (n : Nat) (d rest : List Byte) (h : d.length = n) :
    recv n (d ++ rest) = some (⟨⟨d⟩, h⟩, rest) := by
  subst h
  exact recv_append d.length ⟨⟨d⟩, rfl⟩ rest

/-- What `recv` takes and leaves is the stream (R70). -/
theorem recv_some (n : Nat) (bs : List Byte) (x : Vector Byte n) (rest : List Byte)
    (h : recv n bs = some (x, rest)) : bs = x.toList ++ rest := by
  unfold recv at h
  split at h
  · simp only [Option.some.injEq, Prod.mk.injEq] at h
    obtain ⟨rfl, rfl⟩ := h
    simp [Vector.toList]
  · simp at h

/-- `recv` waits exactly while too few bytes have arrived (R87). -/
theorem recv_none (n : Nat) (bs : List Byte) : recv n bs = none ↔ bs.length < n := by
  unfold recv
  split <;> simp <;> omega

end Sys2Proof.Machine
end

