-- ==== Sys2Proof/Laws/State.lean ====
section
/-! SUPPORT. One lemma per field per named update of the state, so that no later proof unfolds a record update. -/

namespace Sys2Proof.Machine

section SendUpdate
variable (s : State) (bytes : List Byte)
@[simp] theorem State.send_h : (s.send bytes).h = s.h := rfl
@[simp] theorem State.send_v : (s.send bytes).v = s.v := rfl
@[simp] theorem State.send_w : (s.send bytes).w = s.w := rfl
@[simp] theorem State.send_t : (s.send bytes).t = s.t := rfl
@[simp] theorem State.send_wcnt : (s.send bytes).wcnt = s.wcnt := rfl
@[simp] theorem State.send_hv : (s.send bytes).hv = s.hv := rfl
@[simp] theorem State.send_av : (s.send bytes).av = s.av := rfl
@[simp] theorem State.send_cmd : (s.send bytes).cmd = s.cmd := rfl
@[simp] theorem State.send_resp : (s.send bytes).resp = s.resp ++ bytes := rfl
@[simp] theorem State.send_resetPending : (s.send bytes).resetPending = s.resetPending := rfl
@[simp] theorem State.send_draws : (s.send bytes).draws = s.draws := rfl
end SendUpdate

section AbandonUpdate
variable (s : State)
@[simp] theorem State.abandon_h : s.abandon.h = s.h := rfl
@[simp] theorem State.abandon_v : s.abandon.v = s.v := rfl
@[simp] theorem State.abandon_w : s.abandon.w = s.w := rfl
@[simp] theorem State.abandon_t : s.abandon.t = 0 := rfl
@[simp] theorem State.abandon_wcnt : s.abandon.wcnt = s.wcnt := rfl
@[simp] theorem State.abandon_hv : s.abandon.hv = s.hv := rfl
@[simp] theorem State.abandon_av : s.abandon.av = false := rfl
@[simp] theorem State.abandon_cmd : s.abandon.cmd = s.cmd := rfl
@[simp] theorem State.abandon_resp : s.abandon.resp = s.resp := rfl
@[simp] theorem State.abandon_resetPending : s.abandon.resetPending = s.resetPending := rfl
@[simp] theorem State.abandon_draws : s.abandon.draws = s.draws := rfl
end AbandonUpdate

section LoadHUpdate
variable (s : State) (x : Words8)
@[simp] theorem State.loadH_h : (s.loadH x).h = x := rfl
@[simp] theorem State.loadH_v : (s.loadH x).v = s.v := rfl
@[simp] theorem State.loadH_w : (s.loadH x).w = s.w := rfl
@[simp] theorem State.loadH_t : (s.loadH x).t = 0 := rfl
@[simp] theorem State.loadH_wcnt : (s.loadH x).wcnt = s.wcnt := rfl
@[simp] theorem State.loadH_hv : (s.loadH x).hv = true := rfl
@[simp] theorem State.loadH_av : (s.loadH x).av = false := rfl
@[simp] theorem State.loadH_cmd : (s.loadH x).cmd = s.cmd := rfl
@[simp] theorem State.loadH_resp : (s.loadH x).resp = s.resp := rfl
@[simp] theorem State.loadH_resetPending : (s.loadH x).resetPending = s.resetPending := rfl
@[simp] theorem State.loadH_draws : (s.loadH x).draws = s.draws := rfl
end LoadHUpdate

section LoadBlockUpdate
variable (s : State) (b : Block)
@[simp] theorem State.loadBlock_h : (s.loadBlock b).h = s.h := rfl
@[simp] theorem State.loadBlock_v : (s.loadBlock b).v = s.v := rfl
@[simp] theorem State.loadBlock_w : (s.loadBlock b).w = loadWords b s.w := rfl
@[simp] theorem State.loadBlock_t : (s.loadBlock b).t = 0 := rfl
@[simp] theorem State.loadBlock_wcnt : (s.loadBlock b).wcnt = 16 := rfl
@[simp] theorem State.loadBlock_hv : (s.loadBlock b).hv = s.hv := rfl
@[simp] theorem State.loadBlock_av : (s.loadBlock b).av = false := rfl
@[simp] theorem State.loadBlock_cmd : (s.loadBlock b).cmd = s.cmd := rfl
@[simp] theorem State.loadBlock_resp : (s.loadBlock b).resp = s.resp := rfl
@[simp] theorem State.loadBlock_resetPending : (s.loadBlock b).resetPending = s.resetPending := rfl
@[simp] theorem State.loadBlock_draws : (s.loadBlock b).draws = s.draws := rfl
end LoadBlockUpdate

section ClearUpdate
variable (s : State)
@[simp] theorem State.clear_h : s.clear.h = Config.unspecifiedH s.draws := rfl
@[simp] theorem State.clear_v : s.clear.v = Config.unspecifiedV s.draws := rfl
@[simp] theorem State.clear_w : s.clear.w = Config.unspecifiedW s.draws := rfl
@[simp] theorem State.clear_t : s.clear.t = 0 := rfl
@[simp] theorem State.clear_wcnt : s.clear.wcnt = 0 := rfl
@[simp] theorem State.clear_hv : s.clear.hv = false := rfl
@[simp] theorem State.clear_av : s.clear.av = false := rfl
@[simp] theorem State.clear_cmd : s.clear.cmd = s.cmd := rfl
@[simp] theorem State.clear_resp : s.clear.resp = s.resp := rfl
@[simp] theorem State.clear_resetPending : s.clear.resetPending = s.resetPending := rfl
@[simp] theorem State.clear_draws : s.clear.draws = s.draws + 1 := rfl
end ClearUpdate

section HardwareResetUpdate
variable (s : State)
@[simp] theorem State.hardwareReset_h : s.hardwareReset.h = Config.unspecifiedH s.draws := rfl
@[simp] theorem State.hardwareReset_v : s.hardwareReset.v = Config.unspecifiedV s.draws := rfl
@[simp] theorem State.hardwareReset_w : s.hardwareReset.w = Config.unspecifiedW s.draws := rfl
@[simp] theorem State.hardwareReset_t : s.hardwareReset.t = 0 := rfl
@[simp] theorem State.hardwareReset_wcnt : s.hardwareReset.wcnt = 0 := rfl
@[simp] theorem State.hardwareReset_hv : s.hardwareReset.hv = false := rfl
@[simp] theorem State.hardwareReset_av : s.hardwareReset.av = false := rfl
@[simp] theorem State.hardwareReset_cmd : s.hardwareReset.cmd = [] := rfl
@[simp] theorem State.hardwareReset_resp : s.hardwareReset.resp = [] := rfl
@[simp] theorem State.hardwareReset_resetPending : s.hardwareReset.resetPending = false := rfl
@[simp] theorem State.hardwareReset_draws : s.hardwareReset.draws = s.draws + 1 := rfl
end HardwareResetUpdate

section PlaceNextUpdate
variable (s : State) (bytes : List Byte)
@[simp] theorem State.placeNext_h : (s.placeNext bytes).h = s.h := rfl
@[simp] theorem State.placeNext_v : (s.placeNext bytes).v = s.v := rfl
@[simp] theorem State.placeNext_w : (s.placeNext bytes).w = s.w := rfl
@[simp] theorem State.placeNext_t : (s.placeNext bytes).t = s.t := rfl
@[simp] theorem State.placeNext_wcnt : (s.placeNext bytes).wcnt = s.wcnt := rfl
@[simp] theorem State.placeNext_hv : (s.placeNext bytes).hv = s.hv := rfl
@[simp] theorem State.placeNext_av : (s.placeNext bytes).av = s.av := rfl
@[simp] theorem State.placeNext_cmd : (s.placeNext bytes).cmd = bytes ++ s.cmd := rfl
@[simp] theorem State.placeNext_resp : (s.placeNext bytes).resp = s.resp := rfl
@[simp] theorem State.placeNext_resetPending : (s.placeNext bytes).resetPending = false := rfl
@[simp] theorem State.placeNext_draws : (s.placeNext bytes).draws = s.draws := rfl
end PlaceNextUpdate

section HostSendUpdate
variable (s : State) (bytes : List Byte)
@[simp] theorem State.hostSend_h : (s.hostSend bytes).h = s.h := rfl
@[simp] theorem State.hostSend_v : (s.hostSend bytes).v = s.v := rfl
@[simp] theorem State.hostSend_w : (s.hostSend bytes).w = s.w := rfl
@[simp] theorem State.hostSend_t : (s.hostSend bytes).t = s.t := rfl
@[simp] theorem State.hostSend_wcnt : (s.hostSend bytes).wcnt = s.wcnt := rfl
@[simp] theorem State.hostSend_hv : (s.hostSend bytes).hv = s.hv := rfl
@[simp] theorem State.hostSend_av : (s.hostSend bytes).av = s.av := rfl
@[simp] theorem State.hostSend_cmd : (s.hostSend bytes).cmd = s.cmd ++ bytes := rfl
@[simp] theorem State.hostSend_resp : (s.hostSend bytes).resp = s.resp := rfl
@[simp] theorem State.hostSend_resetPending : (s.hostSend bytes).resetPending = s.resetPending := rfl
@[simp] theorem State.hostSend_draws : (s.hostSend bytes).draws = s.draws := rfl
end HostSendUpdate

section HostTakeUpdate
variable (s : State) (n : Nat)
@[simp] theorem State.hostTake_h : (s.hostTake n).h = s.h := rfl
@[simp] theorem State.hostTake_v : (s.hostTake n).v = s.v := rfl
@[simp] theorem State.hostTake_w : (s.hostTake n).w = s.w := rfl
@[simp] theorem State.hostTake_t : (s.hostTake n).t = s.t := rfl
@[simp] theorem State.hostTake_wcnt : (s.hostTake n).wcnt = s.wcnt := rfl
@[simp] theorem State.hostTake_hv : (s.hostTake n).hv = s.hv := rfl
@[simp] theorem State.hostTake_av : (s.hostTake n).av = s.av := rfl
@[simp] theorem State.hostTake_cmd : (s.hostTake n).cmd = s.cmd := rfl
@[simp] theorem State.hostTake_resp : (s.hostTake n).resp = s.resp.drop n := rfl
@[simp] theorem State.hostTake_resetPending : (s.hostTake n).resetPending = s.resetPending := rfl
@[simp] theorem State.hostTake_draws : (s.hostTake n).draws = s.draws := rfl
end HostTakeUpdate

section AssertResetUpdate
variable (s : State)
@[simp] theorem State.assertReset_h : s.assertReset.h = s.h := rfl
@[simp] theorem State.assertReset_v : s.assertReset.v = s.v := rfl
@[simp] theorem State.assertReset_w : s.assertReset.w = s.w := rfl
@[simp] theorem State.assertReset_t : s.assertReset.t = s.t := rfl
@[simp] theorem State.assertReset_wcnt : s.assertReset.wcnt = s.wcnt := rfl
@[simp] theorem State.assertReset_hv : s.assertReset.hv = s.hv := rfl
@[simp] theorem State.assertReset_av : s.assertReset.av = s.av := rfl
@[simp] theorem State.assertReset_cmd : s.assertReset.cmd = s.cmd := rfl
@[simp] theorem State.assertReset_resp : s.assertReset.resp = s.resp := rfl
@[simp] theorem State.assertReset_resetPending : s.assertReset.resetPending = true := rfl
@[simp] theorem State.assertReset_draws : s.assertReset.draws = s.draws := rfl
end AssertResetUpdate

/-- Sending twice is sending the concatenation (R71). -/
theorem State.send_send (s : State) (xs ys : List Byte) : (s.send xs).send ys = s.send (xs ++ ys) := by
  simp [State.send, List.append_assoc]

/-- Abandoning a compression twice is abandoning it once. -/
theorem State.abandon_abandon (s : State) : s.abandon.abandon = s.abandon := rfl

end Sys2Proof.Machine
end

