-- ==== Sys2Proof/Laws/Ops.lean ====
section
/-! SUPPORT. What the shared operations of Machine/Ops.lean do, each said once: how a command ends, raising a fault
(spec/60_exceptions.md R224), and repeating an operation. -/

namespace Sys2Proof.Machine

@[simp] theorem finish_ok (s s' : State) (data : List Byte) :
    finish s (.ok (s', data)) = .next (s'.send (okCode :: data)) := rfl

@[simp] theorem finish_error (s : State) (f : FaultCode) : finish s (.error f) = .next (s.send [f.code]) := rfl

@[simp] theorem finishQuiet_ok (s s' : State) : finishQuiet s (.ok s') = .next (s'.send [okCode]) := rfl

@[simp] theorem finishQuiet_error (s : State) (f : FaultCode) : finishQuiet s (.error f) = .next (s.send [f.code]) := rfl

@[simp] theorem raise_eq (f : FaultCode) (s : State) : raise f s = .next (s.send [f.code]) := rfl

/-- A command always ends in a next state (R260): with its effect and data, or with the fault's response on the state
from before. -/
theorem finish_cases (s : State) (r : Except FaultCode (State × List Byte)) :
    (∃ s' data, r = .ok (s', data) ∧ finish s r = .next (s'.send (okCode :: data))) ∨
      ∃ f, r = .error f ∧ finish s r = .next (s.send [f.code]) := by
  cases r with
  | ok p => exact .inl ⟨p.1, p.2, rfl, rfl⟩
  | error f => exact .inr ⟨f, rfl, rfl⟩

theorem finishQuiet_cases (s : State) (r : Except FaultCode State) :
    (∃ s', r = .ok s' ∧ finishQuiet s r = .next (s'.send [okCode])) ∨
      ∃ f, r = .error f ∧ finishQuiet s r = .next (s.send [f.code]) := by
  cases r with
  | ok s' => exact .inl ⟨s', rfl, rfl⟩
  | error f => exact .inr ⟨f, rfl, rfl⟩

/-- An operation after one that went well. -/
@[simp] theorem bind_ok (s : State) (op : State → Except FaultCode State) : (Except.ok s).bind op = op s := rfl

/-- An operation after one that faulted does not happen. -/
@[simp] theorem bind_error (f : FaultCode) (op : State → Except FaultCode State) :
    (Except.error f).bind op = .error f := rfl

@[simp] theorem repeatOp_zero (op : State → Except FaultCode State) (s : State) : repeatOp 0 op s = .ok s := rfl

/-- Repeating along a chain of states the operation runs through. -/
theorem repeatOp_chain (op : State → Except FaultCode State) (f : Nat → State) (n : Nat)
    (h : ∀ k, k < n → op (f k) = .ok (f (k + 1))) : repeatOp n op (f 0) = .ok (f n) := by
  induction n generalizing f with
  | zero => rfl
  | succ n ih =>
    rw [repeatOp, h 0 (Nat.succ_pos n)]
    exact ih (fun k => f (k + 1)) fun k hk => h (k + 1) (Nat.succ_lt_succ hk)

/-- The five fault codes are different, and none is the OK status (R81). -/
theorem FaultCode.code_injective (f g : FaultCode) (h : f.code = g.code) : f = g := by
  cases f <;> cases g <;> first | rfl | exact absurd h (by decide)

theorem FaultCode.code_ne_ok (f : FaultCode) : f.code ≠ okCode := by
  cases f <;> decide

end Sys2Proof.Machine
end

