-- ==== Sys2Proof/Laws/Codec.lean ====
section
/-! SUPPORT. What the codec's and the padding's functions do (spec/44_digest_codec.md, spec/41_padding.md). -/

namespace Sys2Proof.Machine

/-- A digest is eight groups of four bytes (R170). -/
theorem encodeDigest_eq (s : Words8) : encodeDigest s =
    bytesBE s[0].toNat 4 ++ bytesBE s[1].toNat 4 ++ bytesBE s[2].toNat 4 ++ bytesBE s[3].toNat 4
      ++ bytesBE s[4].toNat 4 ++ bytesBE s[5].toNat 4 ++ bytesBE s[6].toNat 4 ++ bytesBE s[7].toNat 4 := by
  have hs : s.toList = [s[0], s[1], s[2], s[3], s[4], s[5], s[6], s[7]] := by
    apply List.ext_getElem
    · simp
    · intro i h₁ h₂
      simp at h₂
      interval_cases i <;> rfl
  simp [encodeDigest, hs]

@[simp] theorem encodeDigest_length (s : Words8) : (encodeDigest s).length = 32 := by
  simp [encodeDigest_eq]

theorem decodeDigest_getElem (d : Vector Byte 32) (i : Nat) (hi : i < 8) :
    (decodeDigest d)[i] = be32 d[4 * i] d[4 * i + 1] d[4 * i + 2] d[4 * i + 3] := by
  simp [decodeDigest]

/-- Exactly the 32-byte sequences are digest operands (R85). -/
theorem digestOperand_some (d : List Byte) (h : d.length = 32) : digestOperand d = some ⟨⟨d⟩, h⟩ := by
  rw [digestOperand, dif_pos h]

theorem digestOperand_none (d : List Byte) (h : d.length ≠ 32) : digestOperand d = none := by
  rw [digestOperand, dif_neg h]

/-- What `DEC d` does, in both cases (R172). -/
theorem decOp_ok (d : Vector Byte 32) (s : State) : decOp d.toList s = .ok (s.loadH (decodeDigest d)) := by
  rw [decOp, digestOperand_some _ (by simp)]
  rfl

theorem decOp_error (d : List Byte) (s : State) (h : d.length ≠ 32) : decOp d s = .error .invalidDigestLength := by
  rw [decOp, digestOperand_none _ h]

/-- The zero count in the two ranges of R113 and R122. -/
theorem zeroCount_eq (len : Nat) : zeroCount len = if len % 64 ≤ 55 then 55 - len % 64 else 119 - len % 64 := by
  unfold zeroCount
  split <;> omega

@[simp] theorem padding_length (len : Nat) : (padding len).length = 9 + zeroCount len := by
  simp [padding]
  omega

/-- `PAD`'s test is `L >= 2^61` (R123). -/
theorem lengthTooLarge_iff (l : BitVec 64) : lengthTooLarge l = true ↔ 2 ^ 61 ≤ l.toNat := by
  have hl := l.isLt
  have e : (l.extractLsb' 61 3).toNat = l.toNat / 2 ^ 61 := by
    rw [BitVec.extractLsb'_toNat, Nat.shiftRight_eq_div_pow]
    exact Nat.mod_eq_of_lt (by omega)
  unfold lengthTooLarge
  rw [bne_iff_ne, ne_eq, ← BitVec.toNat_inj, e]
  simp only [BitVec.ofNat_eq_ofNat, BitVec.toNat_ofNat]
  omega

/-- What `PAD L` answers, in both cases (R121). -/
theorem padData_ok (l : BitVec 64) (h : l.toNat < 2 ^ 61) :
    padData l = .ok (BitVec.ofNat 8 (9 + zeroCount l.toNat) :: padding l.toNat) := by
  rw [padData, if_neg (by rw [lengthTooLarge_iff]; omega)]

theorem padData_error (l : BitVec 64) (h : 2 ^ 61 ≤ l.toNat) : padData l = .error .invalidLength := by
  rw [padData, if_pos ((lengthTooLarge_iff l).mpr h)]

end Sys2Proof.Machine
end

