-- ==== Sys2Proof/Laws/Word.lean ====
section
/-! SUPPORT. Addition and rotation over words, as bit-vector arithmetic (spec/40_word_arithmetic.md R101, R102). -/

namespace Sys2Proof.Machine

@[simp] theorem add32_nil : add32 [] = 0 := rfl

/-- The one-at-a-time form of R101: the first word plus the sum of the others, wrapping. -/
@[simp] theorem add32_cons (x : Word) (xs : List Word) : add32 (x :: xs) = x + add32 xs := by
  apply BitVec.eq_of_toNat_eq
  simp [add32, BitVec.toNat_add, Nat.add_mod]

/-- Grouping does not matter (R101). -/
theorem add32_append (xs ys : List Word) : add32 (xs ++ ys) = add32 xs + add32 ys := by
  induction xs with
  | nil => simp
  | cons x xs ih => simp [ih, BitVec.add_assoc]

/-- `rotr` is the rotation of the bit-vector library, inside its domain. -/
theorem rotr_eq_rotateRight (n : Nat) (x : Word) (bounds : 0 < n ∧ n < 32) :
    rotr n x bounds = x.rotateRight n := by
  simp [rotr, BitVec.rotateRight, BitVec.rotateRightAux, Nat.mod_eq_of_lt bounds.2]

/-- Result bit `i` is bit `(i + n) mod 32` of the operand (R102). -/
theorem rotr_getLsbD (n : Nat) (x : Word) (bounds : 0 < n ∧ n < 32) (i : Nat) (hi : i < 32) :
    (rotr n x bounds).getLsbD i = x.getLsbD ((i + n) % 32) := by
  rw [rotr_eq_rotateRight, BitVec.getLsbD_rotateRight, Nat.mod_eq_of_lt bounds.2]
  by_cases h : i < 32 - n
  · have : (i + n) % 32 = n + i := by omega
    simp [h, this]
  · have : (i + n) % 32 = i - (32 - n) := by omega
    simp [h, hi, this]

/-- Rotation distributes over exclusive-or (R111). -/
theorem rotr_xor (n : Nat) (x y : Word) (bounds : 0 < n ∧ n < 32) :
    rotr n (x ^^^ y) bounds = rotr n x bounds ^^^ rotr n y bounds := by
  apply BitVec.eq_of_getLsbD_eq
  intro i hi
  simp only [BitVec.getLsbD_xor, rotr_getLsbD _ _ _ _ hi]

/-- Shifting right distributes over exclusive-or (R111). -/
theorem shr_xor (n : Nat) (x y : Word) : shr n (x ^^^ y) = shr n x ^^^ shr n y := by
  apply BitVec.eq_of_getLsbD_eq
  intro i _
  simp [shr]

end Sys2Proof.Machine
end

