-- ==== Sys2Proof/Laws/Scheduler.lean ====
section
/-! SUPPORT. What the schedule operations do to each word of the store, and to the state (spec/42_scheduler.md). -/

namespace Sys2Proof.Machine

theorem loadWords_first (b : Block) (w : Schedule) (i : Fin 16) : (loadWords b w)[i.val] = blockWord b i := by
  simp [loadWords]

theorem loadWords_rest (b : Block) (w : Schedule) (i : Nat) (hi : i < 64) (h16 : 16 ≤ i) :
    (loadWords b w)[i] = w[i] := by
  simp [loadWords, Nat.not_lt.mpr h16]

/-- The step writes the word it names. -/
theorem schedStep_same (w : Schedule) (t : Nat) (inRange : 16 ≤ t ∧ t ≤ 63) :
    (schedStep w t)[t] = nextWord w t inRange := by
  simp [schedStep, inRange]

/-- The step leaves every other word alone. -/
theorem schedStep_other (w : Schedule) (t i : Nat) (hi : i < 64) (hne : i ≠ t) : (schedStep w t)[i] = w[i] := by
  unfold schedStep
  split
  · rw [Vector.getElem_set_ne _ _ (Ne.symm hne)]
  · rfl

/-- The recurrence reads only words before the one it computes. -/
theorem nextWord_congr (w₁ w₂ : Schedule) (t : Nat) (inRange : 16 ≤ t ∧ t ≤ 63)
    (h : ∀ (i : Nat) (_ : i < 64), i < t → w₁[i] = w₂[i]) : nextWord w₁ t inRange = nextWord w₂ t inRange := by
  unfold nextWord
  rw [h (t - 2) (by omega) (by omega), h (t - 7) (by omega) (by omega), h (t - 15) (by omega) (by omega),
    h (t - 16) (by omega) (by omega)]

@[simp] theorem expand_zero (w : Schedule) : expand 0 w = w := by
  simp [expand]

theorem expand_succ (n : Nat) (w : Schedule) : expand (n + 1) w = schedStep (expand n w) (16 + n) := by
  simp [expand, List.range'_concat]

/-- The expansion leaves the words before its first alone, and those past its last. -/
theorem expand_other (n : Nat) (w : Schedule) (i : Nat) (hi : i < 64) (h : i < 16 ∨ 16 + n ≤ i) :
    (expand n w)[i] = w[i] := by
  induction n with
  | zero => rw [expand_zero]
  | succ n ih => rw [expand_succ, schedStep_other _ _ _ _ (by omega), ih (by omega)]

/-- Words already computed do not change as the expansion goes on. -/
theorem expand_stable (m n : Nat) (w : Schedule) (i : Nat) (hi : i < 64) (h : i < 16 + m) (hmn : m ≤ n) :
    (expand n w)[i] = (expand m w)[i] := by
  induction n, hmn using Nat.le_induction with
  | base => rfl
  | succ n hle ih => rw [expand_succ, schedStep_other _ _ _ _ (by omega), ih]

/-- Every word the expansion computes obeys the recurrence, read in the expanded store itself (R130). -/
theorem expand_recurrence (n : Nat) (w : Schedule) (t : Nat) (inRange : 16 ≤ t ∧ t ≤ 63) (h : t < 16 + n) :
    (expand n w)[t] = nextWord (expand n w) t inRange := by
  obtain ⟨k, rfl⟩ : ∃ k, t = 16 + k := ⟨t - 16, by omega⟩
  have hstep : (expand (k + 1) w)[16 + k] = nextWord (expand k w) (16 + k) inRange := by
    simp only [expand_succ, schedStep_same _ _ inRange]
  rw [expand_stable (k + 1) n w (16 + k) (by omega) (by omega) (by omega), hstep]
  apply nextWord_congr
  intro i hi hlt
  rw [expand_stable k n w i hi hlt (by omega)]

/-- Two stores that agree on the first sixteen words and obey the recurrence agree on every word. -/
theorem schedule_unique (w₁ w₂ : Schedule) (n : Nat)
    (first : ∀ (i : Nat) (_ : i < 64), i < 16 → w₁[i] = w₂[i])
    (rec₁ : ∀ (t : Nat) (inRange : 16 ≤ t ∧ t ≤ 63), t < n → w₁[t] = nextWord w₁ t inRange)
    (rec₂ : ∀ (t : Nat) (inRange : 16 ≤ t ∧ t ≤ 63), t < n → w₂[t] = nextWord w₂ t inRange) :
    ∀ (i : Nat) (_ : i < 64), i < n → w₁[i] = w₂[i] := by
  intro i
  induction i using Nat.strongRecOn with
  | ind i ih =>
    intro hi hlt
    by_cases h16 : i < 16
    · exact first i hi h16
    · have inRange : 16 ≤ i ∧ i ≤ 63 := by omega
      rw [rec₁ i inRange hlt, rec₂ i inRange hlt]
      exact nextWord_congr _ _ _ _ fun j hj hji => ih j hji hj (by omega)

theorem sched_first (b : Block) (i : Fin 16) : (sched b)[i.val] = blockWord b i := by
  unfold sched
  rw [expand_other _ _ _ (by omega) (by omega), loadWords_first]

theorem sched_recurrence (b : Block) (t : Nat) (inRange : 16 ≤ t ∧ t ≤ 63) :
    (sched b)[t] = nextWord (sched b) t inRange :=
  expand_recurrence 48 _ t inRange (by omega)

/-- Whatever the store held, loading a block and expanding it gives that block's schedule (R133). -/
theorem expand_loadWords (b : Block) (w : Schedule) : expand 48 (loadWords b w) = sched b := by
  apply Vector.ext
  intro i hi
  refine schedule_unique _ _ 64 ?_ ?_ ?_ i hi hi
  · intro j hj h16
    rw [expand_other _ _ _ hj (by omega), loadWords_first b w ⟨j, h16⟩, ← sched_first b ⟨j, h16⟩]
  · exact fun t inRange _ => expand_recurrence 48 _ t inRange (by omega)
  · exact fun t inRange _ => sched_recurrence b t inRange

/-- A store whose first sixteen words are a block's and whose others obey the recurrence is that block's schedule. -/
theorem eq_sched_of_recurrence (b : Block) (w : Schedule) (first : ∀ i : Fin 16, w[i.val] = blockWord b i)
    (recurrence : ∀ (t : Nat) (inRange : 16 ≤ t ∧ t ≤ 63), w[t] = nextWord w t inRange) : w = sched b := by
  apply Vector.ext
  intro i hi
  refine schedule_unique _ _ 64 ?_ ?_ ?_ i hi hi
  · intro j hj h16
    rw [first ⟨j, h16⟩, ← sched_first b ⟨j, h16⟩]
  · exact fun t inRange _ => recurrence t inRange
  · exact fun t inRange _ => sched_recurrence b t inRange

theorem State.wstepReady_iff (s : State) : s.wstepReady = true ↔ 16 ≤ s.wcnt.toNat ∧ s.wcnt.toNat ≤ 63 := by
  simp [State.wstepReady]

/-- What `WSTEP` does, in both cases (R132). -/
theorem wstepOp_ok (s : State) (h : 16 ≤ s.wcnt.toNat ∧ s.wcnt.toNat ≤ 63) :
    wstepOp s = .ok { s with w := schedStep s.w s.wcnt.toNat, wcnt := s.wcnt + 1 } := by
  rw [wstepOp, if_pos ((State.wstepReady_iff s).mpr h)]

theorem wstepOp_error (s : State) (h : ¬(16 ≤ s.wcnt.toNat ∧ s.wcnt.toNat ≤ 63)) :
    wstepOp s = .error .sequenceError := by
  rw [wstepOp, if_neg (mt (State.wstepReady_iff s).mp h)]

/-- `k` times `WSTEP` after a block has been loaded expand the schedule by `k` words (R132). -/
theorem repeat_wstepOp (s : State) (k : Nat) (hk : k ≤ 48) (hs : s.wcnt = 16) :
    repeatOp k wstepOp s = .ok { s with w := expand k s.w, wcnt := BitVec.ofNat 7 (16 + k) } := by
  have chain := repeatOp_chain wstepOp
    (fun j => { s with w := expand j s.w, wcnt := BitVec.ofNat 7 (16 + j) }) k (by
      intro j hj
      have hj' : (BitVec.ofNat 7 (16 + j)).toNat = 16 + j := by
        rw [BitVec.toNat_ofNat]; exact Nat.mod_eq_of_lt (by omega)
      have hnext : BitVec.ofNat 7 (16 + j) + 1 = BitVec.ofNat 7 (16 + (j + 1)) := by
        have one : (1 : BitVec 7).toNat = 1 := rfl
        apply BitVec.eq_of_toNat_eq
        rw [BitVec.toNat_add, BitVec.toNat_ofNat, BitVec.toNat_ofNat, one]
        omega
      rw [wstepOp_ok _ (by simp only [hj']; omega)]
      simp only [hj', hnext, expand_succ])
  obtain ⟨h, v, w, t, wcnt, hv, av, cmd, resp, resetPending, draws⟩ := s
  subst hs
  simp only [expand_zero] at chain
  exact chain

/-- What `SCHED b` does (R133): it never faults. -/
theorem schedOp_eq (b : Block) (s : State) :
    schedOp b s = .ok { s.abandon with w := sched b, wcnt := 64 } := by
  rw [schedOp, repeat_wstepOp _ _ (Nat.le_refl 48) rfl, State.loadBlock_w, expand_loadWords]
  rfl

end Sys2Proof.Machine
end

