-- ==== Sys2Proof/Laws/Compression.lean ====
section
/-! SUPPORT. What the compression operations do to the working variables and to the state (spec/43_compression.md). -/

namespace Sys2Proof.Machine

@[simp] theorem rounds_zero (w : Schedule) (v : Words8) : rounds 0 w v = v := by
  simp [rounds]

/-- One more round (R145). -/
theorem rounds_succ (n : Nat) (w : Schedule) (v : Words8) : rounds (n + 1) w v = roundAt w (rounds n w v) n := by
  simp [rounds, List.range_succ]

/-- Inside `0 .. 63` round `t` is `mix` with `K[t]` and `W[t]`. -/
theorem roundAt_eq_mix (w : Schedule) (v : Words8) (t : Nat) (inRange : t < 64) :
    roundAt w v t = mix K[t] w[t] v := by
  rw [roundAt, dif_pos inRange]

/-- The rounds read only the schedule words of their own indices. -/
theorem rounds_congr (n : Nat) (w₁ w₂ : Schedule) (v : Words8)
    (h : ∀ (i : Nat) (_ : i < 64), i < n → w₁[i] = w₂[i]) : rounds n w₁ v = rounds n w₂ v := by
  induction n with
  | zero => rw [rounds_zero, rounds_zero]
  | succ n ih =>
    rw [rounds_succ, rounds_succ, ih fun i hi hlt => h i hi (by omega)]
    unfold roundAt
    split
    · rw [h n (by omega) (by omega)]
    · rfl

theorem addWords_getElem (s v : Words8) (i : Nat) (hi : i < 8) : (addWords s v)[i] = add32 [s[i], v[i]] := by
  simp [addWords]

theorem State.roundReady_iff (s : State) :
    s.roundReady = true ↔ s.av = true ∧ s.t.toNat < 64 ∧ s.t.toNat < s.wcnt.toNat := by
  simp [State.roundReady, and_assoc]

theorem State.cfinReady_iff (s : State) : s.cfinReady = true ↔ s.av = true ∧ s.t.toNat = 64 := by
  simp [State.cfinReady]

theorem State.compressReady_iff (s : State) : s.compressReady = true ↔ s.hv = true ∧ s.wcnt.toNat = 64 := by
  simp [State.compressReady]

/-- What `CINIT` does, in both cases (R147). -/
theorem cinitOp_ok (s : State) (h : s.hv = true) : cinitOp s = .ok { s with v := s.h, av := true, t := 0 } := by
  rw [cinitOp, State.hReady, if_pos h]

theorem cinitOp_error (s : State) (h : s.hv = false) : cinitOp s = .error .sequenceError := by
  simp [cinitOp, State.hReady, h]

/-- What `ROUND` does, in both cases (R148). -/
theorem roundOp_ok (s : State) (h : s.av = true ∧ s.t.toNat < 64 ∧ s.t.toNat < s.wcnt.toNat) :
    roundOp s = .ok { s with v := roundAt s.w s.v s.t.toNat, t := s.t + 1 } := by
  rw [roundOp, if_pos ((State.roundReady_iff s).mpr h)]

theorem roundOp_error (s : State) (h : ¬(s.av = true ∧ s.t.toNat < 64 ∧ s.t.toNat < s.wcnt.toNat)) :
    roundOp s = .error .sequenceError := by
  rw [roundOp, if_neg (mt (State.roundReady_iff s).mp h)]

/-- What `CFIN` does, in both cases (R149). -/
theorem cfinOp_ok (s : State) (h : s.av = true ∧ s.t.toNat = 64) :
    cfinOp s = .ok { s.abandon with h := addWords s.h s.v } := by
  rw [cfinOp, if_pos ((State.cfinReady_iff s).mpr h)]

theorem cfinOp_error (s : State) (h : ¬(s.av = true ∧ s.t.toNat = 64)) : cfinOp s = .error .sequenceError := by
  rw [cfinOp, if_neg (mt (State.cfinReady_iff s).mp h)]

/-- `k` times `ROUND` from round 0 on a schedule that has the words (R148). -/
theorem repeat_roundOp (s : State) (k : Nat) (hk : k ≤ 64) (hw : k ≤ s.wcnt.toNat) (ha : s.av = true) (ht : s.t = 0) :
    repeatOp k roundOp s = .ok { s with v := rounds k s.w s.v, t := BitVec.ofNat 7 k } := by
  have chain := repeatOp_chain roundOp
    (fun j => { s with v := rounds j s.w s.v, t := BitVec.ofNat 7 j }) k (by
      intro j hj
      have hj' : (BitVec.ofNat 7 j).toNat = j := by
        rw [BitVec.toNat_ofNat]; exact Nat.mod_eq_of_lt (by omega)
      have hnext : BitVec.ofNat 7 j + 1 = BitVec.ofNat 7 (j + 1) := by
        have one : (1 : BitVec 7).toNat = 1 := rfl
        apply BitVec.eq_of_toNat_eq
        rw [BitVec.toNat_add, BitVec.toNat_ofNat, BitVec.toNat_ofNat, one]
        omega
      rw [roundOp_ok]
      · simp only [hj', hnext, rounds_succ]
      · simp only [hj']
        exact ⟨ha, by omega, by omega⟩)
  obtain ⟨h, v, w, t, wcnt, hv, av, cmd, resp, resetPending, draws⟩ := s
  subst ht
  simp only [rounds_zero] at chain
  exact chain

/-- What `COMPRESS` does when its check passes (R150): none of its steps faults. -/
theorem compressOp_ok (s : State) (h : s.hv = true ∧ s.wcnt.toNat = 64) :
    compressOp s = .ok { s.abandon with h := compress s.w s.h, v := rounds 64 s.w s.h } := by
  have start := cinitOp_ok s h.1
  have run := repeat_roundOp { s with v := s.h, av := true, t := 0 } 64 (Nat.le_refl 64) (by simp [h.2]) rfl rfl
  have done := cfinOp_ok { s with v := rounds 64 s.w s.h, av := true, t := BitVec.ofNat 7 64 } ⟨rfl, rfl⟩
  rw [compressOp, if_pos ((State.compressReady_iff s).mpr h), start, bind_ok, run, bind_ok, done, compress]
  rfl

theorem compressOp_error (s : State) (h : ¬(s.hv = true ∧ s.wcnt.toNat = 64)) :
    compressOp s = .error .sequenceError := by
  rw [compressOp, if_neg (mt (State.compressReady_iff s).mp h)]

/-- What `BLOCK b` does, in both cases (R151). -/
theorem blockOp_ok (b : Block) (s : State) (h : s.hv = true) :
    blockOp b s = .ok { s.abandon with
      w := sched b, wcnt := 64, h := compress (sched b) s.h, v := rounds 64 (sched b) s.h } := by
  have run := compressOp_ok { s.abandon with w := sched b, wcnt := 64 } ⟨h, rfl⟩
  rw [blockOp, State.hReady, if_pos h, schedOp_eq, bind_ok, run]
  rfl

theorem blockOp_error (b : Block) (s : State) (h : s.hv = false) : blockOp b s = .error .sequenceError := by
  simp [blockOp, State.hReady, h]

end Sys2Proof.Machine
end

