-- ==== Sys2Proof/Laws/Decode.lean ====
section
/-! SUPPORT. The opcode map is one to one, and each format reads back the bytes it is written as
(spec/30_encoding.md). -/

namespace Sys2Proof

open Sys2Proof.Machine

/-- An opcode's byte selects it (R77). -/
@[simp] theorem Opcode.ofByte_toByte (o : Opcode) : Opcode.ofByte o.toByte = some o := by
  cases o <;> rfl

/-- A byte selects an opcode only if it is that opcode's byte (R77). -/
theorem Opcode.ofByte_some (b : Byte) (o : Opcode) (h : Opcode.ofByte b = some o) : b = o.toByte := by
  have := List.find?_some h
  exact (beq_iff_eq.mp this).symm

/-- The bytes that select no command (R78). -/
theorem Opcode.ofByte_none (b : Byte) : Opcode.ofByte b = none ↔ b.toNat = 0 ∨ 15 ≤ b.toNat := by
  revert b
  decide

/-- Format `FL` reads back its eight bytes (R74, R83). -/
theorem decodeLength_encoded (l : BitVec 64) (rest : List Byte) :
    decodeLength (bytesBE l.toNat 8 ++ rest) = .command (.pad l) rest := by
  have hlen : (bytesBE l.toNat 8).length = 8 := by simp
  have e : bytesBE l.toNat 8 = (⟨⟨bytesBE l.toNat 8⟩, hlen⟩ : Vector Byte 8).toList := rfl
  have hl : lengthOperand ⟨⟨bytesBE l.toNat 8⟩, hlen⟩ = l := by
    apply BitVec.eq_of_toNat_eq
    rw [lengthOperand_toNat, ← e, natBE_bytesBE]
    exact Nat.mod_eq_of_lt l.isLt
  rw [decodeLength, e, recv_append]
  simp only [hl]

/-- Format `FB` reads back its 64 bytes (R75). -/
theorem decodeBlock_encoded (mk : Block → Instr) (b : Block) (rest : List Byte) :
    decodeBlock mk (b.toList ++ rest) = .command (mk b) rest := by
  rw [decodeBlock, recv_append]

/-- Format `FD` reads back its count and its bytes (R76). -/
theorem decodeCounted_encoded (d rest : List Byte) (h : d.length ≤ 255) :
    decodeCounted (BitVec.ofNat 8 d.length :: (d ++ rest)) = .command (.dec d) rest := by
  have hn : (BitVec.ofNat 8 d.length).toNat = d.length := by
    rw [BitVec.toNat_ofNat]
    exact Nat.mod_eq_of_lt (by omega)
  rw [decodeCounted, recv_list _ d rest hn.symm]
  rfl

end Sys2Proof
end

