-- ==== Sys2Proof/Laws/Exec.lean ====
section
/-! SUPPORT. What each command's meaning answers, in each of its cases, as a state and its response; and the one form
all of them have. -/

namespace Sys2Proof.Machine

theorem exec_pad_ok (l : BitVec 64) (s : State) (h : l.toNat < 2 ^ 61) : exec (.pad l) s =
    .next (s.send (okCode :: BitVec.ofNat 8 (9 + zeroCount l.toNat) :: padding l.toNat)) := by
  rw [exec, execPad, padData_ok l h]; rfl

theorem exec_pad_error (l : BitVec 64) (s : State) (h : ¬l.toNat < 2 ^ 61) : exec (.pad l) s =
    .next (s.send [FaultCode.invalidLength.code]) := by
  rw [exec, execPad, padData_error l (Nat.le_of_not_lt h)]; rfl

theorem exec_ldblk (b : Block) (s : State) : exec (.ldblk b) s = .next ((s.loadBlock b).send [okCode]) := rfl

theorem exec_wstep_ok (s : State) (h : 16 ≤ s.wcnt.toNat ∧ s.wcnt.toNat ≤ 63) : exec .wstep s =
    .next (State.send [okCode] { s with w := schedStep s.w s.wcnt.toNat, wcnt := s.wcnt + 1 }) := by
  rw [exec, execWstep, wstepOp_ok s h]; rfl

theorem exec_wstep_error (s : State) (h : ¬(16 ≤ s.wcnt.toNat ∧ s.wcnt.toNat ≤ 63)) : exec .wstep s =
    .next (s.send [FaultCode.sequenceError.code]) := by
  rw [exec, execWstep, wstepOp_error s h]; rfl

theorem exec_sched (b : Block) (s : State) : exec (.sched b) s =
    .next (State.send [okCode] { s.abandon with w := sched b, wcnt := 64 }) := by
  rw [exec, execSched, schedOp_eq]; rfl

theorem exec_cinit_ok (s : State) (h : s.hv = true) : exec .cinit s =
    .next (State.send [okCode] { s with v := s.h, av := true, t := 0 }) := by
  rw [exec, execCinit, cinitOp_ok s h]; rfl

theorem exec_cinit_error (s : State) (h : ¬s.hv = true) : exec .cinit s =
    .next (s.send [FaultCode.sequenceError.code]) := by
  rw [exec, execCinit, cinitOp_error s (Bool.eq_false_of_not_eq_true h)]; rfl

theorem exec_round_ok (s : State) (h : s.av = true ∧ s.t.toNat < 64 ∧ s.t.toNat < s.wcnt.toNat) : exec .round s =
    .next (State.send [okCode] { s with v := roundAt s.w s.v s.t.toNat, t := s.t + 1 }) := by
  rw [exec, execRound, roundOp_ok s h]; rfl

theorem exec_round_error (s : State) (h : ¬(s.av = true ∧ s.t.toNat < 64 ∧ s.t.toNat < s.wcnt.toNat)) :
    exec .round s = .next (s.send [FaultCode.sequenceError.code]) := by
  rw [exec, execRound, roundOp_error s h]; rfl

theorem exec_cfin_ok (s : State) (h : s.av = true ∧ s.t.toNat = 64) : exec .cfin s =
    .next (State.send [okCode] { s.abandon with h := addWords s.h s.v }) := by
  rw [exec, execCfin, cfinOp_ok s h]; rfl

theorem exec_cfin_error (s : State) (h : ¬(s.av = true ∧ s.t.toNat = 64)) : exec .cfin s =
    .next (s.send [FaultCode.sequenceError.code]) := by
  rw [exec, execCfin, cfinOp_error s h]; rfl

theorem exec_compress_ok (s : State) (h : s.hv = true ∧ s.wcnt.toNat = 64) : exec .compress s =
    .next (State.send [okCode] { s.abandon with h := compress s.w s.h, v := rounds 64 s.w s.h }) := by
  rw [exec, execCompress, compressOp_ok s h]; rfl

theorem exec_compress_error (s : State) (h : ¬(s.hv = true ∧ s.wcnt.toNat = 64)) : exec .compress s =
    .next (s.send [FaultCode.sequenceError.code]) := by
  rw [exec, execCompress, compressOp_error s h]; rfl

theorem exec_block_ok (b : Block) (s : State) (h : s.hv = true) : exec (.block b) s =
    .next (State.send [okCode] { s.abandon with
      w := sched b, wcnt := 64, h := compress (sched b) s.h, v := rounds 64 (sched b) s.h }) := by
  rw [exec, execBlock, blockOp_ok b s h]; rfl

theorem exec_block_error (b : Block) (s : State) (h : ¬s.hv = true) : exec (.block b) s =
    .next (s.send [FaultCode.sequenceError.code]) := by
  rw [exec, execBlock, blockOp_error b s (Bool.eq_false_of_not_eq_true h)]; rfl

theorem exec_enc_ok (s : State) (h : s.hv = true) : exec .enc s = .next (s.send (okCode :: encodeDigest s.h)) := by
  rw [exec, execEnc, encData, State.hReady, if_pos h]; rfl

theorem exec_enc_error (s : State) (h : ¬s.hv = true) : exec .enc s =
    .next (s.send [FaultCode.sequenceError.code]) := by
  rw [exec, execEnc, encData, State.hReady, if_neg h]; rfl

theorem exec_dec_ok (d : List Byte) (s : State) (h : d.length = 32) : exec (.dec d) s =
    .next ((s.loadH (decodeDigest ⟨⟨d⟩, h⟩)).send [okCode]) := by
  rw [exec, execDec, decOp, digestOperand_some d h]; rfl

theorem exec_dec_error (d : List Byte) (s : State) (h : ¬d.length = 32) : exec (.dec d) s =
    .next (s.send [FaultCode.invalidDigestLength.code]) := by
  rw [exec, execDec, decOp_error d s h]; rfl

theorem exec_init (s : State) : exec .init s = .next ((s.loadH IV).send [okCode]) := rfl

theorem exec_stat (s : State) : exec .stat s = .next (s.send (okCode :: bytesBE s.status.toNat 2)) := rfl

theorem exec_reset (s : State) : exec .reset s = .next (s.clear.send [okCode]) := rfl

/-- The one form every meaning has (R80, R224, R227): it ends OK, having touched neither stream but to append its
response, or it raises the fault of its row on the state from before it. -/
theorem exec_form (i : Instr) (s : State) :
    (∃ (s' : State) (data : List Byte), exec i s = .next (s'.send (okCode :: data)) ∧ s'.resp = s.resp ∧
      s'.cmd = s.cmd ∧ s'.resetPending = s.resetPending ∧ data.length = dataLength i) ∨
    ∃ f, faultColumn i = some f ∧ exec i s = .next (s.send [f.code]) := by
  cases i with
  | pad l =>
    by_cases h : l.toNat < 2 ^ 61
    · exact .inl ⟨s, _, exec_pad_ok l s h, rfl, rfl, rfl, by simp [dataLength]; omega⟩
    · exact .inr ⟨_, rfl, exec_pad_error l s h⟩
  | ldblk b => exact .inl ⟨_, [], exec_ldblk b s, rfl, rfl, rfl, rfl⟩
  | wstep =>
    by_cases h : 16 ≤ s.wcnt.toNat ∧ s.wcnt.toNat ≤ 63
    · exact .inl ⟨_, [], exec_wstep_ok s h, rfl, rfl, rfl, rfl⟩
    · exact .inr ⟨_, rfl, exec_wstep_error s h⟩
  | sched b => exact .inl ⟨_, [], exec_sched b s, rfl, rfl, rfl, rfl⟩
  | cinit =>
    by_cases h : s.hv = true
    · exact .inl ⟨_, [], exec_cinit_ok s h, rfl, rfl, rfl, rfl⟩
    · exact .inr ⟨_, rfl, exec_cinit_error s h⟩
  | round =>
    by_cases h : s.av = true ∧ s.t.toNat < 64 ∧ s.t.toNat < s.wcnt.toNat
    · exact .inl ⟨_, [], exec_round_ok s h, rfl, rfl, rfl, rfl⟩
    · exact .inr ⟨_, rfl, exec_round_error s h⟩
  | cfin =>
    by_cases h : s.av = true ∧ s.t.toNat = 64
    · exact .inl ⟨_, [], exec_cfin_ok s h, rfl, rfl, rfl, rfl⟩
    · exact .inr ⟨_, rfl, exec_cfin_error s h⟩
  | compress =>
    by_cases h : s.hv = true ∧ s.wcnt.toNat = 64
    · exact .inl ⟨_, [], exec_compress_ok s h, rfl, rfl, rfl, rfl⟩
    · exact .inr ⟨_, rfl, exec_compress_error s h⟩
  | block b =>
    by_cases h : s.hv = true
    · exact .inl ⟨_, [], exec_block_ok b s h, rfl, rfl, rfl, rfl⟩
    · exact .inr ⟨_, rfl, exec_block_error b s h⟩
  | enc =>
    by_cases h : s.hv = true
    · exact .inl ⟨s, _, exec_enc_ok s h, rfl, rfl, rfl, by simp [dataLength]⟩
    · exact .inr ⟨_, rfl, exec_enc_error s h⟩
  | dec d =>
    by_cases h : d.length = 32
    · exact .inl ⟨_, [], exec_dec_ok d s h, rfl, rfl, rfl, rfl⟩
    · exact .inr ⟨_, rfl, exec_dec_error d s h⟩
  | init => exact .inl ⟨_, [], exec_init s, rfl, rfl, rfl, rfl⟩
  | stat => exact .inl ⟨s, _, exec_stat s, rfl, rfl, rfl, rfl⟩
  | reset => exact .inl ⟨_, [], exec_reset s, rfl, rfl, rfl, rfl⟩

/-- No meaning takes a byte from the command stream or a pending reset: the fetch does. -/
theorem exec_streams (i : Instr) (s t : State) (h : exec i s = .next t) :
    t.cmd = s.cmd ∧ t.resetPending = s.resetPending := by
  rcases exec_form i s with ⟨s', data, e, _, hcmd, hpending, _⟩ | ⟨f, _, e⟩ <;> (rw [e] at h; cases h)
  · exact ⟨hcmd, hpending⟩
  · exact ⟨rfl, rfl⟩

end Sys2Proof.Machine
end

