-- ==== Sys2Proof/Laws/PerInstr.lean ====
section
/-! SUPPORT. The family `EncodedShape`: every command's encoding opens with its opcode byte and has the length its
format gives (spec/30_encoding.md R72, R86). -/

namespace Sys2Proof.Laws.EncodedShape

/-- The length in bytes of a command of each format (R72); for `FD`, `2 + n`. -/
def formatLength (f : Format) (n : Nat) : Nat :=
  match f with
  | .f0 => 1
  | .fl => 9
  | .fb => 65
  | .fd => 2 + n

/-- The count `n` of a digest operand; 0 for the commands that have none. -/
def count (i : Instr) : Nat :=
  match i with
  | .dec d => d.length
  | .pad _ => 0
  | .ldblk _ => 0
  | .wstep => 0
  | .sched _ => 0
  | .cinit => 0
  | .round => 0
  | .cfin => 0
  | .compress => 0
  | .block _ => 0
  | .enc => 0
  | .init => 0
  | .stat => 0
  | .reset => 0

/-- The encoding opens with the opcode byte and has the format's length. -/
def Statement (i : Instr) : Prop :=
  (encode i).head? = some i.opcode.toByte ∧ (encode i).length = formatLength i.opcode.format (count i)

theorem pad (len : BitVec 64) : Statement (.pad len) := by
  simp [Statement, encode, operandBytes, Instr.opcode, Opcode.format, formatLength]

theorem ldblk (b : Block) : Statement (.ldblk b) := by
  simp [Statement, encode, operandBytes, Instr.opcode, Opcode.format, formatLength]

theorem wstep : Statement .wstep := ⟨rfl, rfl⟩

theorem sched (b : Block) : Statement (.sched b) := by
  simp [Statement, encode, operandBytes, Instr.opcode, Opcode.format, formatLength]

theorem cinit : Statement .cinit := ⟨rfl, rfl⟩

theorem round : Statement .round := ⟨rfl, rfl⟩

theorem cfin : Statement .cfin := ⟨rfl, rfl⟩

theorem compress : Statement .compress := ⟨rfl, rfl⟩

theorem block (b : Block) : Statement (.block b) := by
  simp [Statement, encode, operandBytes, Instr.opcode, Opcode.format, formatLength]

theorem enc : Statement .enc := ⟨rfl, rfl⟩

theorem dec (d : List Byte) : Statement (.dec d) := by
  simp [Statement, encode, operandBytes, Instr.opcode, Opcode.format, formatLength, count]
  omega

theorem init : Statement .init := ⟨rfl, rfl⟩

theorem stat : Statement .stat := ⟨rfl, rfl⟩

theorem reset : Statement .reset := ⟨rfl, rfl⟩

end Sys2Proof.Laws.EncodedShape
end

