-- ==== Sys2Proof/Laws/Procedures.lean ====
section
/-! SUPPORT. What issuing one command does, said once in each case, so that no later proof unfolds `issue` or reads a
response (spec/46_host_sequences.md R190). -/

namespace Sys2Proof.Machine

/-- Every code stands for its fault (R81). -/
@[simp] theorem FaultCode.ofCode_code (f : FaultCode) : FaultCode.ofCode f.code = some f := by
  cases f <;> rfl

/-- A block is idle exactly when both streams are empty and no reset is pending. -/
theorem State.idle_iff (s : State) : s.idle = true ↔ s.cmd = [] ∧ s.resp = [] ∧ s.resetPending = false := by
  simp [State.idle, and_assoc]

/-- An OK response of the length of its command's row, whatever follows it. -/
theorem parseResponse_ok (i : Instr) (data rest : List Byte) (h : answerLength i (data ++ rest) = data.length) :
    parseResponse i (okCode :: (data ++ rest)) = some (.ok data, 1 + data.length) := by
  simp [parseResponse, h]

/-- A fault's response, whatever follows it. -/
theorem parseResponse_fault (i : Instr) (f : FaultCode) (rest : List Byte) :
    parseResponse i (f.code :: rest) = some (.error f, 1) := by
  simp [parseResponse, FaultCode.code_ne_ok]

/-- Taking a whole response from an otherwise empty stream undoes its sending. -/
theorem State.hostTake_send (s : State) (bytes : List Byte) (h : s.resp = []) :
    (s.send bytes).hostTake bytes.length = s := by
  obtain ⟨_, _, _, _, _, _, _, _, resp, _, _⟩ := s
  subst h
  simp [State.send, State.hostTake]

/-- Issuing a command that ends OK on an idle block gives its data and leaves its state. -/
theorem issue_ok (i : Instr) (s s' : State) (data : List Byte) (idle : s.idle = true) (quiet : s'.resp = [])
    (ran : step (s.hostSend (encode i)) = .next (s'.send (okCode :: data)))
    (length : answerLength i data = data.length) : issue i s = .ok data s' := by
  have parsed : parseResponse i (s'.send (okCode :: data)).resp = some (.ok data, 1 + data.length) := by
    rw [State.send_resp, quiet, List.nil_append]
    simpa using parseResponse_ok i data [] (by simpa using length)
  have taken := State.hostTake_send s' (okCode :: data) quiet
  rw [List.length_cons, Nat.add_comm] at taken
  simp only [issue, idle, if_true, ran, parsed, taken]

/-- Issuing a command that faults on an idle block reports the fault and leaves its state. -/
theorem issue_fault (i : Instr) (s s' : State) (f : FaultCode) (idle : s.idle = true) (quiet : s'.resp = [])
    (ran : step (s.hostSend (encode i)) = .next (s'.send [f.code])) : issue i s = .error (.condition f) s' := by
  have parsed : parseResponse i (s'.send [f.code]).resp = some (.error f, 1) := by
    rw [State.send_resp, quiet, List.nil_append]
    exact parseResponse_fault i f []
  have taken := State.hostTake_send s' [f.code] quiet
  rw [List.length_singleton] at taken
  simp only [issue, idle, if_true, ran, parsed, taken]

/-- Nothing is issued to a block that is not idle (log entry 14). -/
theorem issue_busy (i : Instr) (s : State) (busy : s.idle = false) : issue i s = .error .noResponse s := by
  simp [issue, busy]

end Sys2Proof.Machine
end

