-- ==== Sys2Proof/Laws/Run.lean ====
section
/-! SUPPORT. How a run of several steps unfolds, one step at a time, for the host's `Core.run` and for `execSeq`. -/

namespace Sys2Proof.Machine

/-- A run whose first step goes on. -/
theorem core_run_next (n : Nat) (s s' : State) (h : step s = .next s') :
    Sys2Proof.core.run (n + 1) s = Sys2Proof.core.run n s' := by
  refine (Host.Core.run.eq_2 Sys2Proof.core s n).trans ?_
  split
  · next t ht =>
    have : Host.Outcome.next (φ := Fault) (ρ := Refusal) t = .next s' := ht.symm.trans h
    cases this; rfl
  · next t ht => cases ht.symm.trans h
  · next t ht => cases ht.symm.trans h

/-- A run whose first step stops. -/
theorem core_run_fault (n : Nat) (s : State) (why : Fault) (h : step s = .fault why) :
    Sys2Proof.core.run (n + 1) s = .fault why := by
  refine (Host.Core.run.eq_2 Sys2Proof.core s n).trans ?_
  split
  · next t ht => cases ht.symm.trans h
  · next t ht =>
    have : Host.Outcome.fault (σ := State) (ρ := Refusal) t = .fault why := ht.symm.trans h
    cases this; rfl
  · next t ht => cases ht.symm.trans h

/-- The first command of a sequence, when it goes on. -/
theorem execSeq_next (i : Instr) (is : List Instr) (s s' : State) (h : exec i s = .next s') :
    execSeq (i :: is) s = execSeq is s' := by
  rw [execSeq, h]

@[simp] theorem execSeq_nil (s : State) : execSeq [] s = .next s := rfl

/-- A sequence in two parts, when the first goes on. -/
theorem execSeq_append (is js : List Instr) (s s' : State) (h : execSeq is s = .next s') :
    execSeq (is ++ js) s = execSeq js s' := by
  induction is generalizing s with
  | nil => cases h; rfl
  | cons i is ih =>
    rw [execSeq] at h
    split at h
    · next t ht => rw [List.cons_append, execSeq_next _ _ _ _ ht, ih t h]
    · cases h
    · cases h

end Sys2Proof.Machine
end

