-- ==== Sys2Proof/Tests/Slice0.lean ====
section
/-! SUPPORT. Tests of the model on small values from spec/ (each names its place), and for every statement that has
hypotheses a witness that they can be met together. -/

namespace Sys2Proof.Tests

open Sys2Proof Sys2Proof.Machine

/-! ## Values the tests share -/

/-- The bytes of the one block of the padded message "abc" (95_test_vectors.md section 4.1). -/
def abcBytes : List Byte :=
  [0x61, 0x62, 0x63, 0x80] ++ List.replicate 52 0x00 ++ [0x00, 0x00, 0x00, 0x00, 0x00, 0x00, 0x00, 0x18]

def abcBlock : Block := ⟨⟨abcBytes⟩, by decide⟩

/-- The one block of the padded empty message (95_test_vectors.md section 4.2). -/
def emptyBlock : Block := ⟨⟨0x80 :: List.replicate 63 0x00⟩, by decide⟩

/-- A reset state with bytes on the command stream. -/
def sent (bytes : List Byte) : State := { State.reset with cmd := bytes }

/-- A state after `INIT`, with the given fill count. -/
def seeded (wcnt : BitVec 7) : State := { State.reset with h := IV, hv := true, wcnt := wcnt }

/-- A state with a compression in progress at round `t`. -/
def running (t wcnt : BitVec 7) : State := { seeded wcnt with v := IV, av := true, t := t }

/-- The response of a command, when it goes on. -/
def answer (o : Host.Outcome State Fault Refusal) : Option (List Byte) :=
  match o with
  | .next s => some s.resp
  | .fault _ => none
  | .refused _ => none

/-- The chaining state a command leaves. -/
def chaining (o : Host.Outcome State Fault Refusal) : Option Words8 :=
  match o with
  | .next s => some s.h
  | .fault _ => none
  | .refused _ => none

/-- The working variables a command leaves. -/
def working (o : Host.Outcome State Fault Refusal) : Option Words8 :=
  match o with
  | .next s => some s.v
  | .fault _ => none
  | .refused _ => none

/-- One schedule word a command leaves. -/
def scheduleWord (i : Fin 64) (o : Host.Outcome State Fault Refusal) : Option Word :=
  match o with
  | .next s => some s.w[i]
  | .fault _ => none
  | .refused _ => none

/-- The status register a command leaves. -/
def statusAfter (o : Host.Outcome State Fault Refusal) : Option (BitVec 16) :=
  match o with
  | .next s => some s.status
  | .fault _ => none
  | .refused _ => none

/-! ## Well-formedness -/

theorem test_wellFormed_refuses_long_digest : WellFormed (.dec (List.replicate 256 0x00)) = false := by decide +kernel
theorem test_wellFormed_accepts_longest_digest : WellFormed (.dec (List.replicate 255 0x00)) = true := by decide +kernel

/-! ## Decoding: a word of every command, written out from R72 to R77 and section 7 of 30_encoding.md -/

theorem test_decode_pad : decode [0x01, 0, 0, 0, 0, 0, 0, 1, 3, 0x0d] = .command (.pad 259) [0x0d] := by decide
theorem test_decode_ldblk : decode (0x02 :: (abcBytes ++ [0xff])) = .command (.ldblk abcBlock) [0xff] := by decide
theorem test_decode_wstep : decode [0x03, 0x03] = .command .wstep [0x03] := by decide
theorem test_decode_sched : decode (0x04 :: abcBytes) = .command (.sched abcBlock) [] := by decide
theorem test_decode_cinit : decode [0x05] = .command .cinit [] := by decide
theorem test_decode_round : decode [0x06] = .command .round [] := by decide
theorem test_decode_cfin : decode [0x07] = .command .cfin [] := by decide
theorem test_decode_compress : decode [0x08] = .command .compress [] := by decide
theorem test_decode_block : decode (0x09 :: abcBytes) = .command (.block abcBlock) [] := by decide
theorem test_decode_enc : decode [0x0a] = .command .enc [] := by decide
theorem test_decode_dec : decode [0x0b, 0x04, 0x00, 0x01, 0x02, 0x03] = .command (.dec [0, 1, 2, 3]) [] := by decide
theorem test_decode_init : decode [0x0c] = .command .init [] := by decide
theorem test_decode_stat : decode [0x0d] = .command .stat [] := by decide
theorem test_decode_reset : decode [0x0e, 0x0d] = .command .reset [0x0d] := by decide

/-- `DEC` with no bytes and with 255 (95_test_vectors.md section 6). -/
theorem test_decode_dec_empty : decode [0x0b, 0x00, 0x0a] = .command (.dec []) [0x0a] := by decide
theorem test_decode_illegal : decode [0x00, 0xff] = .illegal 0x00 [0xff] := by decide
theorem test_decode_illegal_above : decode [0x0f] = .illegal 0x0f [] := by decide
theorem test_decode_truncated : decode [0x01, 0, 0, 0] = .truncated := by decide

/-- The big-endian operands of the assembler syntax (R90). -/
theorem test_encode_pad : encode (.pad 3) = [0x01, 0, 0, 0, 0, 0, 0, 0, 3] := by decide
theorem test_encode_dec : encode (.dec [0xab]) = [0x0b, 0x01, 0xab] := by decide

/-- Table words: bytes count up from bit 0, zeros follow. -/
theorem test_tableWord_round : decodeTableWord 8 0x06 = some .round := by decide +kernel
theorem test_tableWord_pad : decodeTableWord 72 0x030000000000000001 = some (.pad 3) := by decide +kernel
theorem test_tableWord_dec : decodeTableWord 16 0x010b = some (.dec [0x00]) := by decide +kernel
theorem test_tableWord_illegal : decodeTableWord 8 0x0f = none := by decide +kernel

/-- A table word runs as the first command after reset (section 7 of 30_encoding.md). -/
theorem test_fetchWord_stat : answer (step (State.reset.withFetchWord 8 0x0d)) = some [0x00, 0x00, 0x00] := by
  decide +kernel
theorem test_fetchWord_block : answer (step (State.reset.withFetchWord 520 0x09)) = some [0x05] := by decide +kernel

/-! ## Word functions (95_test_vectors.md section 2) -/

theorem test_bigSigma0 : bigSigma0 0x12345678 = 0x66146474 := by decide
theorem test_bigSigma1 : bigSigma1 0x12345678 = 0x3561abda := by decide
theorem test_smallSigma0 : smallSigma0 0x80000000 = 0x11002000 := by decide
theorem test_smallSigma1 : smallSigma1 0xffffffff = 0x003fffff := by decide
theorem test_rotr : rotr 7 0x61626380 = 0x00c2c4c7 := by decide
theorem test_choice : choice 0xf0f0f0f0 0xcccccccc 0xaaaaaaaa = 0xcacacaca := by decide
theorem test_majority : majority 0xf0f0f0f0 0xcccccccc 0xaaaaaaaa = 0xe8e8e8e8 := by decide
theorem test_add32_wraps : add32 [0xbb67ae85, 0xd39a2165] = 0x8f01cfea := by decide

/-! ## Commands, one step each -/

/-- `PAD 55` and the first length that is refused (95_test_vectors.md section 3). -/
theorem test_pad_55 : answer (exec (.pad 55) State.reset) =
    some [0x00, 0x09, 0x80, 0, 0, 0, 0, 0, 0, 0x01, 0xb8] := by decide
theorem test_pad_too_long : answer (exec (.pad 0x2000000000000000) State.reset) = some [0x01] := by decide
/-- `PAD 56`, where the zero count goes round (R126). -/
theorem test_padding_56 : padding 56 = 0x80 :: (List.replicate 63 0x00 ++ [0, 0, 0, 0, 0, 0, 0x01, 0xc0]) := by decide
theorem test_padding_largest : padding (2 ^ 61 - 1) =
    0x80 :: (List.replicate 56 0x00 ++ [0xff, 0xff, 0xff, 0xff, 0xff, 0xff, 0xff, 0xf8]) := by decide

/-- Byte order of a block (95_test_vectors.md section 4.3). -/
theorem test_ldblk_byte_order : scheduleWord 0 (exec (.ldblk ⟨⟨[1, 2, 3, 4] ++ List.replicate 60 0⟩, by decide⟩)
    State.reset) = some 0x01020304 := by decide +kernel
theorem test_ldblk_status : statusAfter (exec (.ldblk abcBlock) (running 3 64)) = some 0x8800 := by decide +kernel

/-- The first word `WSTEP` computes for "abc", and its end (95_test_vectors.md sections 4.1 and 4.4). -/
theorem test_wstep_first : scheduleWord 16 (exec .wstep { State.reset with
    w := loadWords abcBlock (Vector.replicate 64 0), wcnt := 16 }) = some 0x61626380 := by decide +kernel
theorem test_wstep_at_end : answer (exec .wstep (seeded 64)) = some [0x05] := by decide

/-- The schedule of "abc" (95_test_vectors.md section 4.1). -/
theorem test_sched_last_word : scheduleWord 63 (exec (.sched abcBlock) State.reset) = some 0x12b1edeb := by
  rw [exec_sched]; decide +kernel
theorem test_sched_word_40 : scheduleWord 40 (exec (.sched abcBlock) State.reset) = some 0x9f47bf94 := by
  rw [exec_sched]; decide +kernel

theorem test_cinit_status : statusAfter (exec .cinit (seeded 0)) = some 0xc000 := by decide
theorem test_cinit_without_h : answer (exec .cinit State.reset) = some [0x05] := by decide

/-- The first round of "abc" (R148's example). -/
theorem test_round_first : working (exec .round { running 0 16 with w := (Vector.replicate 64 0).set 0 0x61626380 }) =
    some #v[0x5d6aebcd, 0x6a09e667, 0xbb67ae85, 0x3c6ef372, 0xfa2a4622, 0x510e527f, 0x9b05688c, 0x1f83d9ab] := by
  decide +kernel
theorem test_round_without_word : answer (exec .round (running 16 16)) = some [0x05] := by decide

/-- The end of the compression of "abc" (R149's example). -/
theorem test_cfin : chaining (exec .cfin { running 64 64 with v := #v[0x506e3058, 0xd39a2165, 0x04d24d6c, 0xb85e2ce9,
    0x5ef50f24, 0xfb121210, 0x948d25b6, 0x961f4894] }) =
    some #v[0xba7816bf, 0x8f01cfea, 0x414140de, 0x5dae2223, 0xb00361a3, 0x96177a9c, 0xb410ff61, 0xf20015ad] := by
  decide +kernel
theorem test_cfin_too_early : answer (exec .cfin (running 63 64)) = some [0x05] := by decide

/-- A row of R185's table. -/
theorem test_compress_status : statusAfter (exec .compress (running 10 64)) = some 0xa000 := by
  rw [exec_compress_ok _ (by decide)]; decide
theorem test_compress_without_schedule : answer (exec .compress (seeded 16)) = some [0x05] := by decide

/-- The document's two known answers (R199). -/
theorem test_block_abc : chaining (exec (.block abcBlock) (seeded 0)) =
    some #v[0xba7816bf, 0x8f01cfea, 0x414140de, 0x5dae2223, 0xb00361a3, 0x96177a9c, 0xb410ff61, 0xf20015ad] := by
  rw [exec_block_ok _ _ rfl]; decide +kernel
theorem test_block_empty_message : chaining (exec (.block emptyBlock) (seeded 0)) =
    some #v[0xe3b0c442, 0x98fc1c14, 0x9afbf4c8, 0x996fb924, 0x27ae41e4, 0x649b934c, 0xa495991b, 0x7852b855] := by
  rw [exec_block_ok _ _ rfl]; decide +kernel

theorem test_enc_initial : answer (exec .enc (seeded 0)) =
    some [0x00, 0x6a, 0x09, 0xe6, 0x67, 0xbb, 0x67, 0xae, 0x85, 0x3c, 0x6e, 0xf3, 0x72, 0xa5, 0x4f, 0xf5, 0x3a,
      0x51, 0x0e, 0x52, 0x7f, 0x9b, 0x05, 0x68, 0x8c, 0x1f, 0x83, 0xd9, 0xab, 0x5b, 0xe0, 0xcd, 0x19] := by decide
theorem test_enc_after_reset : answer (exec .enc State.reset) = some [0x05] := by decide

/-- `DEC 000102...1f` (95_test_vectors.md section 6). -/
theorem test_dec : chaining (exec (.dec ((List.range 32).map (BitVec.ofNat 8))) State.reset) =
    some #v[0x00010203, 0x04050607, 0x08090a0b, 0x0c0d0e0f, 0x10111213, 0x14151617, 0x18191a1b, 0x1c1d1e1f] := by
  decide +kernel
theorem test_dec_31_bytes : answer (exec (.dec (List.replicate 31 0)) State.reset) = some [0x03] := by decide

theorem test_init_status : statusAfter (exec .init (running 10 64)) = some 0xa000 := by decide

/-- Rows of R185's table. -/
theorem test_stat_running : answer (exec .stat (running 3 64)) = some [0x00, 0xe0, 0x03] := by decide
theorem test_stat_all_rounds_done : answer (exec .stat (running 64 64)) = some [0x00, 0xe0, 0x40] := by decide

theorem test_reset_status : statusAfter (exec .reset (running 1 64)) = some 0x0000 := by decide
theorem test_reset_answers : answer (exec .reset (running 1 64)) = some [0x00] := by decide

/-! ## The step -/

theorem test_step_illegal : answer (step (sent [0xff, 0x0d])) = some [0x04] := by decide
theorem test_step_fault_takes_bytes : step (sent [0x0b, 0x02, 0x01, 0x02, 0x0d]) =
    .next { sent [0x0d] with resp := [0x03] } := by rfl
theorem test_step_waits : step (sent [0x01, 0x00]) = .fault .awaitingOperands := by rfl
theorem test_step_idle : step State.reset = .fault .awaitingOpcode := by rfl
theorem test_step_hardware_reset : statusAfter (step { running 3 64 with cmd := [0x0d], resetPending := true }) =
    some 0x0000 := by rfl

/-! ## The host's splitter (R191) -/

theorem test_split_misaligned : split [0x61] = .error .misalignedMessage := by rfl
theorem test_split_empty : split [] = .ok [] := by rfl

/-! ## Issuing commands (R190, R71) -/

/-- An unread byte in front of a fault's code is not taken for an OK response. -/
theorem test_issue_with_unread_response : issue .enc { State.reset with resp := [0x00] } =
    .error .noResponse { State.reset with resp := [0x00] } := by rfl
/-- A response ends where R82 says, whatever follows it. -/
theorem test_response_of_stat : parseResponse .stat [0x00, 0xa0, 0x00, 0x05] = some (.ok [0xa0, 0x00], 3) := by rfl

/-! ## Witnesses: for each statement with hypotheses, values that meet them together, at the ends of their ranges -/

theorem witness_DecodeEncodeRoundTrip : WellFormed (.dec (List.replicate 255 0x00)) = true ∧
    WellFormed (.dec []) = true ∧ WellFormed (.pad 0xffffffffffffffff) = true ∧
    WellFormed (.block abcBlock) = true := ⟨test_wellFormed_accepts_longest_digest, rfl, rfl, rfl⟩

theorem witness_DecodedBytesAreTheEncoding :
    decode (encode (.dec [0x01, 0x02]) ++ [0x0a]) = .command (.dec [0x01, 0x02]) [0x0a] := by decide

theorem witness_CommandLengthFromOpcode_splittings :
    WellFormed .init = true ∧ encode .init ++ [0x0a] = encode .init ++ [0x0a] := by decide
theorem witness_CommandLengthFromOpcode_one_byte :
    (0x03 : Byte).toNat ∈ [0x03, 0x05, 0x06, 0x07, 0x08, 0x0A, 0x0C, 0x0D, 0x0E] ∧
    (0x0E : Byte).toNat ∈ [0x03, 0x05, 0x06, 0x07, 0x08, 0x0A, 0x0C, 0x0D, 0x0E] := by decide
theorem witness_CommandLengthFromOpcode_pad : (0x01 : Byte).toNat = 0x01 ∧
    8 ≤ (List.replicate 8 (0x00 : Byte)).length ∧ (List.replicate 7 (0x00 : Byte)).length < 8 := by decide
theorem witness_CommandLengthFromOpcode_block : (0x09 : Byte).toNat ∈ [0x02, 0x04, 0x09] ∧
    64 ≤ (List.replicate 64 (0x00 : Byte)).length ∧ (List.replicate 63 (0x00 : Byte)).length < 64 := by decide
theorem witness_CommandLengthFromOpcode_dec : (0x0B : Byte).toNat = 0x0B ∧
    (0x02 : Byte).toNat ≤ [(0x00 : Byte), 0x00].length ∧ [(0x00 : Byte)].length < (0x02 : Byte).toNat := by decide
theorem witness_CommandLengthFromOpcode_illegal : (0x00 : Byte).toNat = 0 ∧ 0x0F ≤ (0x0F : Byte).toNat ∧
    0x0F ≤ (0xFF : Byte).toNat := by decide

theorem witness_StepRunsDecodedCommand : WellFormed (.dec [0x05]) = true ∧
    (sent [0x0b, 0x01, 0x05, 0x0a]).resetPending = false ∧
    (sent [0x0b, 0x01, 0x05, 0x0a]).cmd = encode (.dec [0x05]) ++ [0x0a] := by decide

theorem witness_TruncatedCommandHasNoStep : WellFormed (.dec [0x05]) = true ∧
    encode (.dec [0x05]) = [0x0b, 0x01] ++ [0x05] ∧ [(0x0b : Byte), 0x01] ≠ [] ∧ [(0x05 : Byte)] ≠ [] ∧
    (sent [0x0b, 0x01]).resetPending = false ∧ (sent [0x0b, 0x01]).cmd = [0x0b, 0x01] := by decide

theorem witness_IllegalByteAnswersOneCode : (sent [0xff]).resetPending = false ∧ (sent [0xff]).cmd = 0xff :: [] ∧
    0x0F ≤ (0xff : Byte).toNat ∧ 0x0F ≤ (0x0f : Byte).toNat ∧ (0x00 : Byte).toNat = 0 := by decide
theorem witness_IllegalByteAnswersOneCode_legal : (sent [0x0e]).resetPending = false ∧ (sent [0x0e]).cmd = 0x0e :: [] ∧
    ¬((0x0e : Byte).toNat = 0 ∨ 0x0F ≤ (0x0e : Byte).toNat) ∧
    ¬((0x01 : Byte).toNat = 0 ∨ 0x0F ≤ (0x01 : Byte).toNat) := by decide

theorem witness_StreamRunsCommandsInOrder : (∀ i ∈ [Instr.init, .enc], WellFormed i = true) ∧
    (sent [0x0c, 0x0a, 0x01]).resetPending = false ∧
    (sent [0x0c, 0x0a, 0x01]).cmd = encodeSeq [.init, .enc] ++ [0x01] := by decide

theorem witness_BlockStopsOnlyToWait : (sent [0x0d]).resetPending = false ∧ decode (sent [0x0d]).cmd ≠ .noOpcode ∧
    decode (sent [0x0d]).cmd ≠ .truncated := by decide

theorem witness_HardwareResetDiscardsStreams : WellFormed .stat = true ∧
    ∃ t, step (running 3 64).assertReset = .next t := ⟨by decide, _, rfl⟩

theorem witness_AdditionWrapsInAnyOrder : [(1 : Word), 2].Perm [2, 1] := by decide

theorem witness_RotationMovesBits : (0 < 1 ∧ 1 < 32) ∧ (0 < 31 ∧ 31 < 32) ∧ (0 < 1 + 30 ∧ 1 + 30 < 32) := by decide

theorem witness_SigmasAreLinear : (0 < 1 ∧ 1 < 32) ∧ (0 < 31 ∧ 31 < 32) := by decide

theorem witness_BigEndianBytesInverse : 0 < 8 ∧ 7 < 8 ∧ 2 ^ 64 - 1 < 2 ^ (8 * 8) ∧
    bytesBE (0xba7816bf : Word).toNat 4 = [0xba, 0x78, 0x16, 0xbf] := by decide

theorem witness_DigestCodecBijective : (encodeDigest IV).length = 32 := by decide

theorem witness_PaddingIsShortestToBlock : 55 % 64 ≤ 55 ∧ 56 ≤ 56 % 64 ∧ 64 % 64 ≤ 55 ∧ 56 ≤ 63 % 64 := by decide

theorem witness_PaddingEndsInBitLength : 0 < 2 ^ 61 ∧ 2 ^ 61 - 1 < 2 ^ 61 := by decide

theorem witness_PadResult : (0x1fffffffffffffff : BitVec 64).toNat < 2 ^ 61 ∧
    2 ^ 61 ≤ (0x2000000000000000 : BitVec 64).toNat := by decide

theorem witness_RoundConstantsAreCubeRoots : ([2, 3, 5] : List Nat)[0]? = some 2 ∧ 0 < 64 ∧ 63 < 64 := by decide

theorem witness_ScheduleObeysRecurrence : 0 < 16 ∧ 15 < 16 ∧ (16 ≤ 16 ∧ 16 ≤ 63) ∧ (16 ≤ 63 ∧ 63 ≤ 63) := by decide

theorem witness_WstepResult : (seeded 16).wcnt.toNat = 16 ∧ (seeded 63).wcnt.toNat = 63 := by decide
theorem witness_WstepResult_refused : State.reset.wcnt.toNat < 16 ∧ (seeded 15).wcnt.toNat < 16 ∧
    63 < (seeded 64).wcnt.toNat := by decide

theorem witness_CinitResult : (seeded 0).hv = true ∧ State.reset.hv = false := by decide

theorem witness_RoundResult : (running 0 1).t.toNat = 0 ∧ (running 0 1).av = true ∧ 0 < (running 0 1).wcnt.toNat ∧
    (running 63 64).t.toNat = 63 ∧ (running 63 64).av = true ∧ 63 < (running 63 64).wcnt.toNat := by decide
theorem witness_RoundResult_refused : (seeded 64).av = false ∧ 64 ≤ (running 64 64).t.toNat ∧
    (running 16 16).wcnt.toNat ≤ (running 16 16).t.toNat := by decide
theorem witness_RoundResult_recovers : (running 16 16).av = true ∧ (running 16 16).t = (running 16 16).wcnt ∧
    16 ≤ (running 16 16).wcnt.toNat ∧ (running 63 63).t = (running 63 63).wcnt ∧ (running 63 63).wcnt.toNat ≤ 63 := by
  decide

theorem witness_CfinResult : (running 64 64).av = true ∧ (running 64 64).t.toNat = 64 ∧ (seeded 64).av = false ∧
    (running 63 64).t.toNat ≠ 64 := by decide

theorem witness_CompressResult : (seeded 64).hv = true ∧ (seeded 64).wcnt.toNat = 64 ∧ State.reset.hv = false ∧
    (seeded 63).wcnt.toNat ≠ 64 := by decide

theorem witness_BlockResult : (seeded 0).hv = true ∧ State.reset.hv = false := by decide
theorem witness_BlockResult_step : (sent (0x09 :: (abcBlock.toList ++ [0x0d]))).hv = false ∧
    (sent (0x09 :: (abcBlock.toList ++ [0x0d]))).resetPending = false ∧
    (sent (0x09 :: (abcBlock.toList ++ [0x0d]))).cmd = 0x09 :: (abcBlock.toList ++ [0x0d]) := ⟨rfl, rfl, rfl⟩

theorem witness_EncResult : (seeded 0).hv = true ∧ State.reset.hv = false := by decide

theorem witness_DecResult : (List.replicate 32 (0x00 : Byte)).length = 32 ∧
    (List.replicate 31 (0x00 : Byte)).length ≠ 32 ∧ (List.replicate 33 (0x00 : Byte)).length ≠ 32 := by decide
theorem witness_DecResult_step : (0x01 : Byte).toNat = [(0xaa : Byte)].length ∧
    (sent [0x0b, 0x01, 0xaa, 0x0d]).resetPending = false ∧
    (sent [0x0b, 0x01, 0xaa, 0x0d]).cmd = 0x0B :: 0x01 :: ([0xaa] ++ [0x0d]) := by decide

theorem witness_DecThenEncReturnsDigest : (List.replicate 32 (0xff : Byte)).length = 32 := by decide

theorem witness_ReadingCommandsChangeNothing : (Instr.stat = .stat) ∧ (Instr.enc = .enc) ∧
    ∃ l, Instr.pad 3 = .pad l := ⟨rfl, rfl, _, rfl⟩

/-- The state after `INIT`, `SCHED <abc>`, `CINIT`. -/
def started : State := { seeded 64 with w := sched abcBlock, v := IV, av := true }

/-- A state with everything live meets the invariants. -/
theorem witness_Inv : started.Inv (some abcBlock) where
  av_hv := fun _ => rfl
  av_t := fun _ => rfl
  t_le_wcnt := by decide
  t_le_64 := by decide
  wcnt_legal := .inr (by decide)
  block_words := fun _ => ⟨abcBlock, rfl, sched_first abcBlock⟩
  recurrence := fun t inRange _ => sched_recurrence abcBlock t inRange
  partial_rounds := fun _ => (rounds_zero _ _).symm

/-- The same with the first word of the schedule alone, where `WSTEP` goes on. -/
def loaded : State := { seeded 16 with w := loadWords abcBlock (Vector.replicate 64 0) }

theorem witness_ReloadingAbandonsCompression : ∃ t, exec .init started = .next t ∧ t.resp = started.resp ++ [0x00] :=
  ⟨_, rfl, rfl⟩
theorem witness_ReloadingAbandonsCompression_compress :
    ∃ t, exec .compress started = .next t ∧ t.resp = started.resp ++ [0x00] :=
  ⟨_, exec_compress_ok started ⟨rfl, rfl⟩, rfl⟩
theorem witness_ReloadingAbandonsCompression_block :
    ∃ t, exec (.block abcBlock) started = .next t ∧ t.resp = started.resp ++ [0x00] :=
  ⟨_, exec_block_ok abcBlock started rfl, rfl⟩
theorem witness_ReloadingAbandonsCompression_wstep : loaded.Inv (some abcBlock) ∧ ∃ t, exec .wstep loaded = .next t :=
  ⟨{ av_hv := fun _ => rfl
     av_t := fun _ => rfl
     t_le_wcnt := by decide
     t_le_64 := by decide
     wcnt_legal := .inr (by decide)
     block_words := fun _ => ⟨abcBlock, rfl, loadWords_first abcBlock _⟩
     recurrence := fun t inRange below => absurd (show t < 16 from below) (by omega)
     partial_rounds := fun h => Bool.noConfusion (show false = true from h) },
   _, exec_wstep_ok loaded (by decide)⟩

theorem witness_SequenceErrorExactly : started.Inv (some abcBlock) := witness_Inv

theorem witness_FaultChangesNothing : WellFormed .enc = true ∧ (sent [0x0a, 0x0d]).resetPending = false ∧
    (sent [0x0a, 0x0d]).cmd = encode .enc ++ [0x0d] ∧
    ∃ t, step (sent [0x0a, 0x0d]) = .next t ∧ t.resp = (sent [0x0a, 0x0d]).resp ++ 0x05 :: [] ∧ (0x05 : Byte) ≠ 0x00 :=
  ⟨rfl, rfl, rfl, _, rfl, rfl, by decide⟩

theorem witness_OneResponsePerCommand : answer (exec (.pad 55) State.reset) =
    some (0x00 :: 0x09 :: [0x80, 0, 0, 0, 0, 0, 0, 0x01, 0xb8]) ∧ answer (exec .enc State.reset) = some (0x05 :: []) := by
  decide

theorem witness_OnlyResetInvalidates : ∃ t, step { seeded 64 with cmd := [0x0e] } = .next t ∧
    ((seeded 64).hv = true ∧ t.hv = false) ∧ ((seeded 64).wcnt ≠ 0 ∧ t.wcnt = 0) :=
  ⟨_, rfl, ⟨rfl, rfl⟩, by decide, rfl⟩

theorem witness_ResetStateRefusesReads : State.reset.IsReset ∧ State.reset.clear.IsReset :=
  ⟨⟨rfl, rfl, rfl, rfl⟩, rfl, rfl, rfl, rfl⟩
theorem witness_ResetStateMeetsInvariants : State.reset.IsReset := ⟨rfl, rfl, rfl, rfl⟩

theorem witness_StepKeepsInvariants : State.Inv (some abcBlock) { started with cmd := [0x06] } ∧
    ∃ t, step { started with cmd := [0x06] } = .next t :=
  ⟨⟨witness_Inv.1, witness_Inv.2, witness_Inv.3, witness_Inv.4, witness_Inv.5, witness_Inv.6, witness_Inv.7,
    witness_Inv.8⟩, _, rfl⟩

/-- Every step of a run from a reachable state reaches a reachable state. -/
theorem reachable_run (n : Nat) (last : Option Block) (s t : State) (h : Reachable last s)
    (run : Sys2Proof.core.run n s = .next t) : ∃ last', Reachable last' t := by
  induction n generalizing last s with
  | zero => cases run; exact ⟨last, h⟩
  | succ n ih =>
    cases hs : step s with
    | next u => exact ih _ u (.step _ _ _ h hs) ((core_run_next n s u hs).symm.trans run)
    | fault f => exact nomatch (core_run_fault n s f hs).symm.trans run
    | refused r => exact absurd hs (by
        unfold step
        split
        · exact nofun
        · next i u _ => rcases exec_form i u with ⟨_, _, e, _⟩ | ⟨_, _, e⟩ <;> rw [e] <;> exact nofun
        · exact nofun
        · exact nofun)

/-- The commands `INIT`, `SCHED <abc>`, `CINIT`, `ROUND *64`, as bytes. -/
def wholeCompression : List Byte := 0x0c :: 0x04 :: (abcBytes ++ 0x05 :: List.replicate 64 0x06)

/-- `AV` and `T` of a state that goes on. -/
def progress (o : Host.Outcome State Fault Refusal) : Option (Bool × BitVec 7) :=
  match o with
  | .next s => some (s.av, s.t)
  | .fault _ => none
  | .refused _ => none

theorem progress_wholeCompression : progress (Sys2Proof.core.run 67 (sent wholeCompression)) = some (true, 64) := by
  decide +kernel

theorem witness_CfinCompressesTheLoadedBlock :
    ∃ last s, Reachable last s ∧ s.av = true ∧ s.t.toNat = 64 := by
  have h := progress_wholeCompression
  cases run : Sys2Proof.core.run 67 (sent wholeCompression) with
  | next t =>
    rw [run] at h
    obtain ⟨last, reach⟩ := reachable_run 67 none _ t (.start _ ⟨rfl, rfl, rfl, rfl⟩) run
    simp only [progress, Option.some.injEq, Prod.mk.injEq] at h
    exact ⟨last, t, reach, h.1, by rw [h.2]; rfl⟩
  | fault f => rw [run] at h; exact nomatch h
  | refused r => rw [run] at h; exact nomatch h
theorem witness_ReachableStatesMeetInvariants : ∃ last s, Reachable last s ∧ s.av = true :=
  let ⟨last, s, reach, av, _⟩ := witness_CfinCompressesTheLoadedBlock
  ⟨last, s, reach, av⟩

/-- 48 `WSTEP` and 64 `ROUND`, each of the last 48 rounds straight after the word it needs. -/
def interleaved : List Instr :=
  List.replicate 16 .round ++ (List.replicate 48 [Instr.wstep, .round]).flatten

theorem progress_interleaved :
    progress (execSeq (.ldblk abcBlock :: .cinit :: interleaved) (seeded 0)) = some (true, 64) := by
  decide +kernel

theorem witness_InterleavedStepsGiveCompression : (seeded 0).hv = true ∧
    (∀ i ∈ interleaved, i = .wstep ∨ i = .round) ∧
    ∃ t, execSeq (.ldblk abcBlock :: .cinit :: interleaved) (seeded 0) = .next t ∧ t.t.toNat = 64 := by
  refine ⟨rfl, by decide +kernel, ?_⟩
  have h := progress_interleaved
  cases run : execSeq (.ldblk abcBlock :: .cinit :: interleaved) (seeded 0) with
  | next t =>
    rw [run] at h
    simp only [progress, Option.some.injEq, Prod.mk.injEq] at h
    exact ⟨t, rfl, by rw [h.2]; rfl⟩
  | fault f => rw [run] at h; exact nomatch h
  | refused r => rw [run] at h; exact nomatch h

theorem witness_UnspecifiedWordsUnobservable : (sent [0x0a]).IsReset ∧ (sent [0x0a]).clear.IsReset ∧
    (sent [0x0a]).cmd = (sent [0x0a]).clear.cmd ∧ (sent [0x0a]).resp = (sent [0x0a]).clear.resp ∧
    (sent [0x0a]).resetPending = (sent [0x0a]).clear.resetPending :=
  ⟨⟨rfl, rfl, rfl, rfl⟩, ⟨rfl, rfl, rfl, rfl⟩, rfl, rfl, rfl⟩
theorem witness_UnspecifiedWordsUnobservable_alike : (seeded 16).Alike { seeded 16 with
    v := Config.unspecifiedV 0, w := (seeded 16).w.set 16 1 } where
  t := rfl
  wcnt := rfl
  hv := rfl
  av := rfl
  cmd := rfl
  resp := rfl
  resetPending := rfl
  h := fun _ => rfl
  v := fun h => Bool.noConfusion (show false = true from h)
  w := fun i _ below => by
    have h : i < 16 := below
    exact (Vector.getElem_set_ne (by decide) (by omega) (by omega)).symm

theorem witness_CopiesDoNotInterfere :
    ∃ c', Copies.stepCopy 1 { blocks := [State.reset, sent [0x0d]] } = some c' := ⟨_, rfl⟩

theorem witness_SplitCutsInOrder : abcBytes.length % 64 = 0 ∧ ([] : List Byte).length % 64 = 0 ∧
    [(0x00 : Byte)].length % 64 ≠ 0 := by decide

theorem witness_Sha256ProcedureReturnsHash : State.reset.idle = true ∧ (seeded 64).idle = true ∧
    [(0x61 : Byte), 0x62, 0x63].length < 2 ^ 61 := by decide
theorem witness_Sha256ProcedureReturnsHash_busy : { State.reset with resp := [0x00] }.idle = false ∧
    (sent [0x0a]).idle = false ∧ ([] : List Byte).length < 2 ^ 64 := by decide
theorem witness_Sha256ProcedureReturnsHash_too_long : 2 ^ 61 ≤ (List.replicate (2 ^ 61) (0x00 : Byte)).length := by
  rw [List.length_replicate]

theorem witness_LengthExtensionMatchesHash : State.reset.idle = true ∧
    [(0x61 : Byte)].length + (padding [(0x61 : Byte)].length).length + [(0x62 : Byte)].length < 2 ^ 61 := by decide

theorem witness_LengthExtensionErrors : State.reset.idle = true ∧ (-1 : Int) < 0 ∧ 2 ^ 61 ≤ (2 ^ 61 : Int) := by decide
theorem witness_LengthExtensionErrors_total : 2 ^ 61 - 1 < 2 ^ 61 ∧
    2 ^ 61 ≤ 2 ^ 61 - 1 + (padding (2 ^ 61 - 1)).length + ([] : List Byte).length := by decide
theorem witness_LengthExtensionErrors_digest : 0 < 2 ^ 61 ∧
    0 + (padding 0).length + ([] : List Byte).length < 2 ^ 61 ∧ [(0x00 : Byte)].length ≠ 32 := by decide

end Sys2Proof.Tests
end

section
/-! PROOFS. The decoder reads back what the encoder writes, and what a step does with the command at the front of the
stream (spec/00_scope.md R12, spec/30_encoding.md R70 to R77). -/

namespace Sys2Proof

/-- After its opcode, a well-formed command is read back from its operand bytes, in each format (R72 to R76). -/
theorem decodeOperands_operandBytes (i : Instr) (rest : List Byte) (wf : WellFormed i = true) :
    decodeOperands i.opcode (operandBytes i ++ rest) = .command i rest := by
  cases i with
  | pad l => exact decodeLength_encoded l rest
  | ldblk b => exact decodeBlock_encoded .ldblk b rest
  | sched b => exact decodeBlock_encoded .sched b rest
  | block b => exact decodeBlock_encoded .block b rest
  | dec d => exact decodeCounted_encoded d rest (by simpa [WellFormed] using wf)
  | wstep | cinit | round | cfin | compress | enc | init | stat | reset => rfl

/-- A stream that opens with an opcode's byte is read by that opcode's format (R77). -/
@[simp] theorem decode_toByte_cons (o : Opcode) (rest : List Byte) :
    decode (o.toByte :: rest) = decodeOperands o rest := by
  simp [decode]

/-- The decoder inverts the encoder on well-formed commands, whatever bytes follow. -/
theorem decode_encode_append (i : Instr) (rest : List Byte) (wf : WellFormed i = true) :
    decode (encode i ++ rest) = .command i rest := by
  rw [encode, List.cons_append, decode_toByte_cons, decodeOperands_operandBytes i rest wf]

end Sys2Proof

namespace Sys2Proof.Machine

/-- With no reset pending, the fetch takes the command the decoder finds, and its bytes. -/
theorem fetch_of_decode_command (s : State) (i : Instr) (rest : List Byte) (quiet : s.resetPending = false)
    (found : decode s.cmd = .command i rest) : fetch s = .command i { s with cmd := rest } := by
  simp [fetch, quiet, found]

/-- With no reset pending, a step executes the command the decoder finds, on the state without its bytes (R12, R70). -/
theorem step_of_decode_command (s : State) (i : Instr) (rest : List Byte) (quiet : s.resetPending = false)
    (found : decode s.cmd = .command i rest) : step s = exec i { s with cmd := rest } := by
  rw [step, fetch_of_decode_command s i rest quiet found]

/-- Settles O5: the decoder finds the encoded command, and a step executes what the decoder finds. -/
theorem stepRunsDecodedCommand : Obligations.StepRunsDecodedCommand := by
  intro s i rest wf quiet front
  have found : decode s.cmd = .command i rest := front ▸ decode_encode_append i rest wf
  exact step_of_decode_command s i rest quiet found

end Sys2Proof.Machine
end

section
/-! PROOFS. What one step does in each of the cases of its fetch (spec/00_scope.md R12, spec/30_encoding.md R78, R87,
spec/70_reset_and_hazards.md R250). -/

namespace Sys2Proof.Machine

/-- A pending reset is fetched before any command. -/
theorem fetch_of_pending (s : State) (pending : s.resetPending = true) : fetch s = .hardReset := by
  simp [fetch, pending]

theorem fetch_of_decode_illegal (s : State) (op : Byte) (rest : List Byte) (quiet : s.resetPending = false)
    (found : decode s.cmd = .illegal op rest) : fetch s = .illegal { s with cmd := rest } := by
  simp [fetch, quiet, found]

theorem fetch_of_decode_noOpcode (s : State) (quiet : s.resetPending = false) (found : decode s.cmd = .noOpcode) :
    fetch s = .waiting .awaitingOpcode := by
  simp [fetch, quiet, found]

theorem fetch_of_decode_truncated (s : State) (quiet : s.resetPending = false) (found : decode s.cmd = .truncated) :
    fetch s = .waiting .awaitingOperands := by
  simp [fetch, quiet, found]

/-- A step takes a pending reset (R250). -/
theorem step_of_pending (s : State) (pending : s.resetPending = true) : step s = .next s.hardwareReset := by
  rw [step, fetch_of_pending s pending]

/-- A step answers a byte that selects no command with IllegalCommand's code and takes that byte (R78). -/
theorem step_of_decode_illegal (s : State) (op : Byte) (rest : List Byte) (quiet : s.resetPending = false)
    (found : decode s.cmd = .illegal op rest) :
    step s = .next (State.send [FaultCode.illegalCommand.code] { s with cmd := rest }) := by
  rw [step, fetch_of_decode_illegal s op rest quiet found]
  rfl

/-- There is no step while nothing whole has arrived (R87). -/
theorem step_of_fetch_waiting (s : State) (why : Fault) (waits : fetch s = .waiting why) : step s = .fault why := by
  rw [step, waits]

end Sys2Proof.Machine
end

section
/-! PROOFS. The invariants of R31 (spec/10_state.md): what keeps them, for each kind of update a command makes, and so
every command, every step and every reachable state. -/

namespace Sys2Proof.Machine

section Updates
variable {last : Option Block} {s : State}

/-- The invariants say nothing about the streams or a pending reset. -/
theorem State.Inv.streams (inv : s.Inv last) (cmd resp : List Byte) (pending : Bool) :
    State.Inv last { s with cmd := cmd, resp := resp, resetPending := pending } :=
  { inv with }

/-- Answering a command keeps the invariants. -/
theorem State.Inv.send (inv : s.Inv last) (bytes : List Byte) : (s.send bytes).Inv last :=
  inv.streams _ _ _

/-- With no compression in progress only the clauses about the schedule store are left to show. -/
theorem State.inv_of_no_compression (idle : s.av = false) (start : s.t = 0)
    (wcnt_legal : s.wcnt.toNat = 0 ∨ 16 ≤ s.wcnt.toNat ∧ s.wcnt.toNat ≤ 64)
    (block_words : 16 ≤ s.wcnt.toNat → ∃ b, last = some b ∧ ∀ i : Fin 16, s.w[i.val] = blockWord b i)
    (recurrence : ∀ (t : Nat) (inRange : 16 ≤ t ∧ t ≤ 63), t < s.wcnt.toNat → s.w[t] = nextWord s.w t inRange) :
    s.Inv last where
  av_hv running := by simp [idle] at running
  av_t _ := start
  t_le_wcnt := by simp [start]
  t_le_64 := by simp [start]
  wcnt_legal := wcnt_legal
  block_words := block_words
  recurrence := recurrence
  partial_rounds running := by simp [idle] at running

/-- A reset state claims nothing of its words: it runs no compression and has no valid schedule word. -/
theorem State.IsReset.inv (reset : s.IsReset) : s.Inv last := by
  obtain ⟨-, av, wcnt, t⟩ := reset
  refine State.inv_of_no_compression av t (.inl (by simp [wcnt])) ?_ ?_
  · simp [wcnt]
  · simp [wcnt]

theorem State.clear_isReset (s : State) : s.clear.IsReset := ⟨rfl, rfl, rfl, rfl⟩

theorem State.hardwareReset_isReset (s : State) : s.hardwareReset.IsReset := ⟨rfl, rfl, rfl, rfl⟩

/-- Abandoning the compression and giving `H` and `V` any words, valid or not, keeps the invariants (R256). -/
theorem State.Inv.abandon (inv : s.Inv last) (h v : Words8) (hv : Bool) :
    State.Inv last { s.abandon with h := h, v := v, hv := hv } :=
  State.inv_of_no_compression rfl rfl inv.wcnt_legal inv.block_words inv.recurrence

/-- Loading a block makes it the block last loaded (R131). -/
theorem State.loadBlock_inv (b : Block) (s : State) : (s.loadBlock b).Inv (some b) := by
  refine State.inv_of_no_compression rfl rfl (.inr (by simp)) ?_ ?_
  · exact fun _ => ⟨b, rfl, loadWords_first b s.w⟩
  · intro t inRange below
    have noneYet : t < 16 := below
    omega

/-- A whole schedule is that of the block last loaded, whatever `H` and `V` hold (R133, R151). -/
theorem State.sched_inv (b : Block) (s : State) (h v : Words8) :
    State.Inv (some b) { s.abandon with w := sched b, wcnt := 64, h := h, v := v } := by
  refine State.inv_of_no_compression rfl rfl (.inr (by simp)) ?_ ?_
  · exact fun _ => ⟨b, rfl, sched_first b⟩
  · exact fun t inRange _ => sched_recurrence b t inRange

/-- Beginning a compression: no round has been applied to `H` yet (R147). -/
theorem State.Inv.cinit (inv : s.Inv last) (seeded : s.hv = true) :
    State.Inv last { s with v := s.h, av := true, t := 0 } :=
  { inv with
    av_hv := fun _ => seeded
    av_t := nofun
    t_le_wcnt := Nat.zero_le _
    t_le_64 := Nat.zero_le _
    partial_rounds := fun _ => (rounds_zero s.w s.h).symm }

/-- A seven-bit counter that has not reached 64 counts on without wrapping. -/
theorem counter_succ (c : BitVec 7) (small : c.toNat < 64) : (c + 1).toNat = c.toNat + 1 := by
  have one : (1 : BitVec 7).toNat = 1 := rfl
  rw [BitVec.toNat_add, one]
  omega

/-- One more round takes the rounds applied to `H` so far one round on (R148). -/
theorem State.Inv.round (inv : s.Inv last) (ready : s.av = true ∧ s.t.toNat < 64 ∧ s.t.toNat < s.wcnt.toNat) :
    State.Inv last { s with v := roundAt s.w s.v s.t.toNat, t := s.t + 1 } := by
  obtain ⟨running, unfinished, available⟩ := ready
  have next := counter_succ s.t unfinished
  exact { inv with
    av_t := fun idle => by simp [running] at idle
    t_le_wcnt := by simp only [next]; omega
    t_le_64 := by simp only [next]; omega
    partial_rounds := fun _ => by
      simp only [next, rounds_succ]
      rw [← inv.partial_rounds running] }

/-- One more schedule word obeys the recurrence, and the words it leaves alone are all that the block, the earlier words
and the rounds already done depend on (R132). -/
theorem State.Inv.wstep (inv : s.Inv last) (ready : 16 ≤ s.wcnt.toNat ∧ s.wcnt.toNat ≤ 63) :
    State.Inv last { s with w := schedStep s.w s.wcnt.toNat, wcnt := s.wcnt + 1 } := by
  have next := counter_succ s.wcnt (by omega)
  have kept : ∀ (i : Nat) (_ : i < 64), i < s.wcnt.toNat → (schedStep s.w s.wcnt.toNat)[i] = s.w[i] :=
    fun i hi below => schedStep_other s.w _ i hi (Nat.ne_of_lt below)
  exact { inv with
    t_le_wcnt := by simpa only [next] using Nat.le_succ_of_le inv.t_le_wcnt
    wcnt_legal := .inr (by simp only [next]; omega)
    block_words := fun _ => by
      obtain ⟨b, loaded, first⟩ := inv.block_words ready.1
      exact ⟨b, loaded, fun i => (kept i (by omega) (by omega)).trans (first i)⟩
    recurrence := fun t inRange below => by
      have upTo : t < s.wcnt.toNat + 1 := next ▸ below
      have same : nextWord (schedStep s.w s.wcnt.toNat) t inRange = nextWord s.w t inRange :=
        nextWord_congr _ _ t inRange fun i hi hlt => kept i hi (by omega)
      rw [same]
      by_cases earlier : t < s.wcnt.toNat
      · exact (kept t (by omega) earlier).trans (inv.recurrence t inRange earlier)
      · obtain rfl : t = s.wcnt.toNat := by omega
        exact schedStep_same s.w _ inRange
    partial_rounds := fun running => by
      have enough := inv.t_le_wcnt
      exact (inv.partial_rounds running).trans
        (rounds_congr _ _ _ _ fun i hi hlt => (kept i hi (by omega)).symm) }

end Updates

/-- Every command, whatever the state, ends in a state that keeps the invariants for the block it leaves loaded. -/
theorem exec_keeps_inv (last : Option Block) (i : Instr) (s : State) (inv : s.Inv last) :
    ∃ s', exec i s = .next s' ∧ s'.Inv (loadedBy last i s) := by
  cases i with
  | pad l =>
    by_cases h : l.toNat < 2 ^ 61
    · exact ⟨_, exec_pad_ok l s h, inv.send _⟩
    · exact ⟨_, exec_pad_error l s h, inv.send _⟩
  | ldblk b => exact ⟨_, exec_ldblk b s, (State.loadBlock_inv b s).send _⟩
  | wstep =>
    by_cases h : 16 ≤ s.wcnt.toNat ∧ s.wcnt.toNat ≤ 63
    · exact ⟨_, exec_wstep_ok s h, (inv.wstep h).send _⟩
    · exact ⟨_, exec_wstep_error s h, inv.send _⟩
  | sched b => exact ⟨_, exec_sched b s, (State.sched_inv b s s.h s.v).send _⟩
  | cinit =>
    by_cases h : s.hv = true
    · exact ⟨_, exec_cinit_ok s h, (inv.cinit h).send _⟩
    · exact ⟨_, exec_cinit_error s h, inv.send _⟩
  | round =>
    by_cases h : s.av = true ∧ s.t.toNat < 64 ∧ s.t.toNat < s.wcnt.toNat
    · exact ⟨_, exec_round_ok s h, (inv.round h).send _⟩
    · exact ⟨_, exec_round_error s h, inv.send _⟩
  | cfin =>
    by_cases h : s.av = true ∧ s.t.toNat = 64
    · exact ⟨_, exec_cfin_ok s h, (inv.abandon _ _ _).send _⟩
    · exact ⟨_, exec_cfin_error s h, inv.send _⟩
  | compress =>
    by_cases h : s.hv = true ∧ s.wcnt.toNat = 64
    · exact ⟨_, exec_compress_ok s h, (inv.abandon _ _ _).send _⟩
    · exact ⟨_, exec_compress_error s h, inv.send _⟩
  | block b =>
    by_cases h : s.hv = true
    · have loads : loadedBy last (.block b) s = some b := if_pos h
      exact ⟨_, exec_block_ok b s h, by rw [loads]; exact (State.sched_inv b s _ _).send _⟩
    · have keeps : loadedBy last (.block b) s = last := if_neg h
      exact ⟨_, exec_block_error b s h, by rw [keeps]; exact inv.send _⟩
  | enc =>
    by_cases h : s.hv = true
    · exact ⟨_, exec_enc_ok s h, inv.send _⟩
    · exact ⟨_, exec_enc_error s h, inv.send _⟩
  | dec d =>
    by_cases h : d.length = 32
    · exact ⟨_, exec_dec_ok d s h, (inv.abandon _ _ _).send _⟩
    · exact ⟨_, exec_dec_error d s h, inv.send _⟩
  | init => exact ⟨_, exec_init s, (inv.abandon _ _ _).send _⟩
  | stat => exact ⟨_, exec_stat s, inv.send _⟩
  | reset => exact ⟨_, exec_reset s, s.clear_isReset.inv.send _⟩

/-- Settles O48: by cases on what the step fetches; a command keeps the invariants by `exec_keeps_inv`, a reset gives a
reset state, and an illegal byte touches the streams alone. -/
theorem stepKeepsInvariants : Obligations.StepKeepsInvariants := by
  intro last s s' inv ran
  cases pending : s.resetPending with
  | true =>
    rw [step_of_pending s pending] at ran
    cases ran
    exact s.hardwareReset_isReset.inv
  | false =>
    cases found : decode s.cmd with
    | command i rest =>
      obtain ⟨s₁, goes, inv₁⟩ := exec_keeps_inv last i { s with cmd := rest } (inv.streams _ _ _)
      rw [step_of_decode_command s i rest pending found, goes] at ran
      cases ran
      rwa [loadedByStep, fetch_of_decode_command s i rest pending found]
    | illegal op rest =>
      rw [step_of_decode_illegal s op rest pending found] at ran
      cases ran
      rw [loadedByStep, fetch_of_decode_illegal s op rest pending found]
      exact inv.streams _ _ _
    | noOpcode =>
      rw [step_of_fetch_waiting s _ (fetch_of_decode_noOpcode s pending found)] at ran
      cases ran
    | truncated =>
      rw [step_of_fetch_waiting s _ (fetch_of_decode_truncated s pending found)] at ran
      cases ran

/-- Settles O47: no clause says anything of a state without valid words. -/
theorem resetStateMeetsInvariants : Obligations.ResetStateMeetsInvariants :=
  ⟨⟨rfl, rfl, rfl, rfl⟩, fun _ reset => reset.inv⟩

/-- Settles O49, by induction on how the state is reached: reset states meet the invariants, steps keep them, and the host
touches only the streams and the pending reset. -/
theorem reachableStatesMeetInvariants : Obligations.ReachableStatesMeetInvariants := by
  intro last s reach
  induction reach with
  | start s reset => exact reset.inv
  | step last s s' _ ran inv => exact stepKeepsInvariants last s s' inv ran
  | hostSend last s bytes _ inv => exact inv.streams _ _ _
  | hostTake last s n _ inv => exact inv.streams _ _ _
  | assertReset last s _ inv => exact inv.streams _ _ _

end Sys2Proof.Machine
end

section
/-! PROOFS. The words the spec leaves unspecified cannot be observed (spec/10_state.md R38,
spec/93_implementation_defined.md U2): alike states pass the same tests, read the same words, and stay alike under every
update, so under every command and every step. -/

namespace Sys2Proof.Machine

section Updates
variable {s₁ s₂ : State}

/-- The same answer keeps two states alike. -/
theorem State.Alike.send (alike : s₁.Alike s₂) (bytes : List Byte) : (s₁.send bytes).Alike (s₂.send bytes) :=
  { alike with resp := congrArg (· ++ bytes) alike.resp }

/-- `STAT` reads flags and counters alone (R30). -/
theorem State.Alike.status (alike : s₁.Alike s₂) : s₁.status = s₂.status := by
  simp only [State.status, alike.hv, alike.av, alike.wcnt, alike.t]

/-- Reset states with the same streams are alike: none of their words is valid. -/
theorem State.IsReset.alike (reset₁ : s₁.IsReset) (reset₂ : s₂.IsReset) (cmd : s₁.cmd = s₂.cmd)
    (resp : s₁.resp = s₂.resp) (pending : s₁.resetPending = s₂.resetPending) : s₁.Alike s₂ := by
  obtain ⟨hv₁, av₁, wcnt₁, t₁⟩ := reset₁
  obtain ⟨hv₂, av₂, wcnt₂, t₂⟩ := reset₂
  exact {
    t := t₁.trans t₂.symm
    wcnt := wcnt₁.trans wcnt₂.symm
    hv := hv₁.trans hv₂.symm
    av := av₁.trans av₂.symm
    cmd := cmd
    resp := resp
    resetPending := pending
    h := fun valid => by simp [hv₁] at valid
    v := fun valid => by simp [av₁] at valid
    w := fun i _ valid => by simp [wcnt₁] at valid }

/-- Abandoning the compression makes `V` unobservable, whatever it holds (R256). -/
theorem State.Alike.abandon (alike : s₁.Alike s₂) (v₁ v₂ : Words8) :
    State.Alike { s₁.abandon with v := v₁ } { s₂.abandon with v := v₂ } :=
  { alike with t := rfl, av := rfl, v := nofun }

/-- Writing to `H` words that are the same where `H` is valid keeps two states alike. -/
theorem State.Alike.writeH (alike : s₁.Alike s₂) {h₁ h₂ : Words8} (same : s₁.hv = true → h₁ = h₂) :
    State.Alike { s₁ with h := h₁ } { s₂ with h := h₂ } :=
  { alike with h := same }

theorem State.Alike.loadH (alike : s₁.Alike s₂) (h : Words8) : (s₁.loadH h).Alike (s₂.loadH h) :=
  { alike.abandon s₁.v s₂.v with hv := rfl, h := fun _ => rfl }

/-- The valid words after `LDBLK` are the block's (R131). -/
theorem State.Alike.loadBlock (alike : s₁.Alike s₂) (b : Block) : (s₁.loadBlock b).Alike (s₂.loadBlock b) :=
  { alike.abandon s₁.v s₂.v with
    wcnt := rfl
    w := fun i _ valid => by
      have first : i < 16 := valid
      exact (loadWords_first b s₁.w ⟨i, first⟩).trans (loadWords_first b s₂.w ⟨i, first⟩).symm }

/-- A whole schedule of the same words keeps two states alike. -/
theorem State.Alike.writeSchedule (alike : s₁.Alike s₂) (w : Schedule) :
    State.Alike { s₁ with w := w, wcnt := 64 } { s₂ with w := w, wcnt := 64 } :=
  { alike with wcnt := rfl, w := fun _ _ _ => rfl }

/-- With all 64 words valid, alike states hold the same schedule. -/
theorem State.Alike.schedule (alike : s₁.Alike s₂) (full : s₁.wcnt.toNat = 64) : s₁.w = s₂.w :=
  Vector.ext fun i hi => alike.w i hi (full ▸ hi)

/-- `WSTEP` computes its word from valid words (R132). -/
theorem State.Alike.wstep (alike : s₁.Alike s₂) (ready : 16 ≤ s₁.wcnt.toNat ∧ s₁.wcnt.toNat ≤ 63) :
    State.Alike { s₁ with w := schedStep s₁.w s₁.wcnt.toNat, wcnt := s₁.wcnt + 1 }
      { s₂ with w := schedStep s₂.w s₂.wcnt.toNat, wcnt := s₂.wcnt + 1 } := by
  rw [← alike.wcnt]
  exact { alike with
    wcnt := rfl
    w := fun i hi valid => by
      have upTo : i < s₁.wcnt.toNat + 1 := counter_succ s₁.wcnt (by omega) ▸ valid
      by_cases last : i = s₁.wcnt.toNat
      · subst last
        simp only [schedStep_same _ _ ready]
        exact nextWord_congr _ _ _ ready alike.w
      · simp only [schedStep_other _ _ i hi last]
        exact alike.w i hi (by omega) }

/-- `CINIT` copies a valid `H` (R147). -/
theorem State.Alike.cinit (alike : s₁.Alike s₂) (seeded : s₁.hv = true) :
    State.Alike { s₁ with v := s₁.h, av := true, t := 0 } { s₂ with v := s₂.h, av := true, t := 0 } :=
  { alike with t := rfl, av := rfl, v := fun _ => alike.h seeded }

/-- `ROUND` reads a valid `V` and one valid schedule word (R148). -/
theorem State.Alike.round (alike : s₁.Alike s₂)
    (ready : s₁.av = true ∧ s₁.t.toNat < 64 ∧ s₁.t.toNat < s₁.wcnt.toNat) :
    State.Alike { s₁ with v := roundAt s₁.w s₁.v s₁.t.toNat, t := s₁.t + 1 }
      { s₂ with v := roundAt s₂.w s₂.v s₂.t.toNat, t := s₂.t + 1 } := by
  obtain ⟨running, unfinished, available⟩ := ready
  rw [← alike.t]
  exact { alike with
    t := rfl
    v := fun _ => by
      simp only [roundAt_eq_mix _ _ _ unfinished, alike.v running, alike.w _ unfinished available] }

end Updates

/-- Alike states pass the same test of a command, and end alike whether it goes on or faults. -/
theorem exec_keeps_alike (i : Instr) (s₁ s₂ : State) (alike : s₁.Alike s₂) :
    ∃ t₁ t₂, exec i s₁ = .next t₁ ∧ exec i s₂ = .next t₂ ∧ t₁.Alike t₂ := by
  cases i with
  | pad l =>
    by_cases h : l.toNat < 2 ^ 61
    · exact ⟨_, _, exec_pad_ok l s₁ h, exec_pad_ok l s₂ h, alike.send _⟩
    · exact ⟨_, _, exec_pad_error l s₁ h, exec_pad_error l s₂ h, alike.send _⟩
  | ldblk b => exact ⟨_, _, exec_ldblk b s₁, exec_ldblk b s₂, (alike.loadBlock b).send _⟩
  | wstep =>
    have test := alike.wcnt
    by_cases h : 16 ≤ s₁.wcnt.toNat ∧ s₁.wcnt.toNat ≤ 63
    · exact ⟨_, _, exec_wstep_ok s₁ h, exec_wstep_ok s₂ (test ▸ h), (alike.wstep h).send _⟩
    · exact ⟨_, _, exec_wstep_error s₁ h, exec_wstep_error s₂ (test ▸ h), alike.send _⟩
  | sched b =>
    exact ⟨_, _, exec_sched b s₁, exec_sched b s₂, ((alike.abandon s₁.v s₂.v).writeSchedule _).send _⟩
  | cinit =>
    by_cases h : s₁.hv = true
    · exact ⟨_, _, exec_cinit_ok s₁ h, exec_cinit_ok s₂ (alike.hv ▸ h), (alike.cinit h).send _⟩
    · exact ⟨_, _, exec_cinit_error s₁ h, exec_cinit_error s₂ (alike.hv ▸ h), alike.send _⟩
  | round =>
    have test : (s₁.av = true ∧ s₁.t.toNat < 64 ∧ s₁.t.toNat < s₁.wcnt.toNat) ↔
        (s₂.av = true ∧ s₂.t.toNat < 64 ∧ s₂.t.toNat < s₂.wcnt.toNat) := by
      rw [alike.av, alike.t, alike.wcnt]
    by_cases h : s₁.av = true ∧ s₁.t.toNat < 64 ∧ s₁.t.toNat < s₁.wcnt.toNat
    · exact ⟨_, _, exec_round_ok s₁ h, exec_round_ok s₂ (test.mp h), (alike.round h).send _⟩
    · exact ⟨_, _, exec_round_error s₁ h, exec_round_error s₂ (mt test.mpr h), alike.send _⟩
  | cfin =>
    have test : (s₁.av = true ∧ s₁.t.toNat = 64) ↔ (s₂.av = true ∧ s₂.t.toNat = 64) := by
      rw [alike.av, alike.t]
    by_cases h : s₁.av = true ∧ s₁.t.toNat = 64
    · have same (seeded : s₁.hv = true) : addWords s₁.h s₁.v = addWords s₂.h s₂.v := by
        rw [alike.h seeded, alike.v h.1]
      exact ⟨_, _, exec_cfin_ok s₁ h, exec_cfin_ok s₂ (test.mp h),
        ((alike.abandon s₁.v s₂.v).writeH same).send _⟩
    · exact ⟨_, _, exec_cfin_error s₁ h, exec_cfin_error s₂ (mt test.mpr h), alike.send _⟩
  | compress =>
    have test : (s₁.hv = true ∧ s₁.wcnt.toNat = 64) ↔ (s₂.hv = true ∧ s₂.wcnt.toNat = 64) := by
      rw [alike.hv, alike.wcnt]
    by_cases h : s₁.hv = true ∧ s₁.wcnt.toNat = 64
    · have same (seeded : s₁.hv = true) : compress s₁.w s₁.h = compress s₂.w s₂.h := by
        rw [alike.schedule h.2, alike.h seeded]
      exact ⟨_, _, exec_compress_ok s₁ h, exec_compress_ok s₂ (test.mp h),
        ((alike.abandon _ _).writeH same).send _⟩
    · exact ⟨_, _, exec_compress_error s₁ h, exec_compress_error s₂ (mt test.mpr h), alike.send _⟩
  | block b =>
    by_cases h : s₁.hv = true
    · have same (seeded : s₁.hv = true) : compress (sched b) s₁.h = compress (sched b) s₂.h := by
        rw [alike.h seeded]
      exact ⟨_, _, exec_block_ok b s₁ h, exec_block_ok b s₂ (alike.hv ▸ h),
        (((alike.abandon _ _).writeSchedule _).writeH same).send _⟩
    · exact ⟨_, _, exec_block_error b s₁ h, exec_block_error b s₂ (alike.hv ▸ h), alike.send _⟩
  | enc =>
    by_cases h : s₁.hv = true
    · refine ⟨_, _, exec_enc_ok s₁ h, exec_enc_ok s₂ (alike.hv ▸ h), ?_⟩
      rw [alike.h h]
      exact alike.send _
    · exact ⟨_, _, exec_enc_error s₁ h, exec_enc_error s₂ (alike.hv ▸ h), alike.send _⟩
  | dec d =>
    by_cases h : d.length = 32
    · exact ⟨_, _, exec_dec_ok d s₁ h, exec_dec_ok d s₂ h, (alike.loadH _).send _⟩
    · exact ⟨_, _, exec_dec_error d s₁ h, exec_dec_error d s₂ h, alike.send _⟩
  | init => exact ⟨_, _, exec_init s₁, exec_init s₂, (alike.loadH IV).send _⟩
  | stat =>
    refine ⟨_, _, exec_stat s₁, exec_stat s₂, ?_⟩
    rw [alike.status]
    exact alike.send _
  | reset =>
    have cleared : s₁.clear.Alike s₂.clear :=
      s₁.clear_isReset.alike s₂.clear_isReset alike.cmd alike.resp alike.resetPending
    exact ⟨_, _, exec_reset s₁, exec_reset s₂, cleared.send _⟩

/-- Alike states step alike: both go on, to alike states, or both wait for the same thing. -/
theorem step_keeps_alike (s₁ s₂ : State) (alike : s₁.Alike s₂) :
    (∃ t₁ t₂, step s₁ = .next t₁ ∧ step s₂ = .next t₂ ∧ t₁.Alike t₂) ∨
      ∃ why, step s₁ = .fault why ∧ step s₂ = .fault why := by
  cases pending : s₁.resetPending with
  | true =>
    exact .inl ⟨_, _, step_of_pending s₁ pending, step_of_pending s₂ (alike.resetPending ▸ pending),
      s₁.hardwareReset_isReset.alike s₂.hardwareReset_isReset rfl rfl rfl⟩
  | false =>
    have pending₂ : s₂.resetPending = false := alike.resetPending ▸ pending
    have stripped (rest : List Byte) : State.Alike { s₁ with cmd := rest } { s₂ with cmd := rest } :=
      { alike with cmd := rfl }
    cases found : decode s₁.cmd with
    | command i rest =>
      rw [step_of_decode_command s₁ i rest pending found,
        step_of_decode_command s₂ i rest pending₂ (alike.cmd ▸ found)]
      exact .inl (exec_keeps_alike i _ _ (stripped rest))
    | illegal op rest =>
      exact .inl ⟨_, _, step_of_decode_illegal s₁ op rest pending found,
        step_of_decode_illegal s₂ op rest pending₂ (alike.cmd ▸ found), (stripped rest).send _⟩
    | noOpcode =>
      exact .inr ⟨_, step_of_fetch_waiting s₁ _ (fetch_of_decode_noOpcode s₁ pending found),
        step_of_fetch_waiting s₂ _ (fetch_of_decode_noOpcode s₂ pending₂ (alike.cmd ▸ found))⟩
    | truncated =>
      exact .inr ⟨_, step_of_fetch_waiting s₁ _ (fetch_of_decode_truncated s₁ pending found),
        step_of_fetch_waiting s₂ _ (fetch_of_decode_truncated s₂ pending₂ (alike.cmd ▸ found))⟩

/-- Runs of any length from alike states end alike, by induction on their length. -/
theorem run_keeps_alike (n : Nat) (s₁ s₂ : State) (alike : s₁.Alike s₂) :
    EndAlike (Sys2Proof.core.run n s₁) (Sys2Proof.core.run n s₂) := by
  induction n generalizing s₁ s₂ with
  | zero => exact alike
  | succ n ih =>
    rcases step_keeps_alike s₁ s₂ alike with ⟨t₁, t₂, ran₁, ran₂, next⟩ | ⟨why, stop₁, stop₂⟩
    · rw [core_run_next n s₁ t₁ ran₁, core_run_next n s₂ t₂ ran₂]
      exact ih t₁ t₂ next
    · rw [core_run_fault n s₁ why stop₁, core_run_fault n s₂ why stop₂]
      rfl

/-- Settles O51: reset states have no valid word to differ in, and alike states run alike. -/
theorem unspecifiedWordsUnobservable : Obligations.UnspecifiedWordsUnobservable :=
  ⟨fun _ _ reset₁ reset₂ cmd resp pending => reset₁.alike reset₂ cmd resp pending, run_keeps_alike⟩

end Sys2Proof.Machine
end

section
/-! PROOFS. Several copies of the block share nothing a step writes (spec/10_state.md R36, spec/60_exceptions.md
R236). -/

namespace Sys2Proof.Machine

/-- A copy steps exactly when it is there and its own state steps; its entry alone is replaced. -/
theorem Copies.stepCopy_eq_some (k : Nat) (c c' : Copies) :
    c.stepCopy k = some c' ↔
      ∃ s s', c.blocks[k]? = some s ∧ step s = .next s' ∧ c' = { blocks := c.blocks.set k s' } := by
  rw [Copies.stepCopy]
  cases c.blocks[k]? with
  | none => simp
  | some s => cases ran : step s <;> simp [ran, eq_comm]

/-- Settles O52: replacing one entry of a list keeps its length and its other entries. -/
theorem copiesDoNotInterfere : Obligations.CopiesDoNotInterfere := by
  intro k c c' stepped
  obtain ⟨s, s', here, ran, rfl⟩ := (Copies.stepCopy_eq_some k c c').mp stepped
  obtain ⟨inRange, -⟩ := List.getElem?_eq_some_iff.mp here
  exact ⟨List.length_set, fun j other => List.getElem?_set_ne (Ne.symm other),
    s, s', here, ran, List.getElem?_set_self inRange⟩

end Sys2Proof.Machine
end

section
/-! PROOFS. What a reset state answers (spec/10_state.md R38, spec/70_reset_and_hazards.md R251, R254). -/

namespace Sys2Proof.Machine

section ResetState
variable {s : State}

theorem State.IsReset.status (reset : s.IsReset) : s.status = 0 := by
  obtain ⟨hv, av, wcnt, t⟩ := reset
  simp [State.status, hv, av, wcnt, t]

/-- A command that needs a valid word is refused in a reset state: each one's test fails on a flag or a counter. -/
theorem State.IsReset.refuses (reset : s.IsReset) (i : Instr)
    (reads : i ∈ [.wstep, .cinit, .round, .cfin, .compress, .enc] ∨ ∃ b, i = .block b) :
    exec i s = .next (s.send [FaultCode.sequenceError.code]) := by
  obtain ⟨hv, av, wcnt, -⟩ := reset
  simp only [List.mem_cons, List.not_mem_nil, or_false] at reads
  rcases reads with (rfl | rfl | rfl | rfl | rfl | rfl) | ⟨b, rfl⟩
  · exact exec_wstep_error s (by simp [wcnt])
  · exact exec_cinit_error s (by simp [hv])
  · exact exec_round_error s (by simp [av])
  · exact exec_cfin_error s (by simp [av])
  · exact exec_compress_error s (by simp [hv])
  · exact exec_enc_error s (by simp [hv])
  · exact exec_block_error b s (by simp [hv])

end ResetState

/-- Settles O46: `STATUS` is made of fields that are all 0, and each refusal is SequenceError's response. -/
theorem resetStateRefusesReads : Obligations.ResetStateRefusesReads :=
  ⟨⟨rfl, rfl, rfl, rfl⟩, fun _ reset => ⟨reset.status, reset.refuses⟩⟩

end Sys2Proof.Machine
end

section
/-! PROOFS. Byte order (spec/20_memory.md R51 to R54): which byte of a word each byte of a sequence is. -/

namespace Sys2Proof.Machine

/-- `BE32` as the weighted sum of its bytes (R52). -/
theorem be32_toNat_weighted (a b c d : Byte) :
    (be32 a b c d).toNat = a.toNat * 2^24 + b.toNat * 2^16 + c.toNat * 2^8 + d.toNat := by
  rw [be32_toNat]
  simp only [natBE, List.foldl_cons, List.foldl_nil]
  omega

/-- Settles O15: the laws of `bytesBE`, `natBE` and `be32`; a number below `2^(8n)` is its own remainder. -/
theorem bigEndianBytesInverse : Obligations.BigEndianBytesInverse := by
  refine ⟨fun v n j hj => ?_, fun v n small => ?_, be32_of_bytesBE, fun a b c d => ?_⟩
  · rw [List.getElem?_eq_getElem (by simpa using hj), bytesBE_getElem]
  · rw [natBE_bytesBE, Nat.mod_eq_of_lt small]
  · exact ⟨be32_toNat_weighted a b c d, bytesBE_be32 a b c d⟩

/-- The bytes a word is written as are its bit fields, the most significant first (R51, R53). -/
theorem bytesBE_word_getElem? (x : Word) (j : Nat) (hj : j < 4) :
    (bytesBE x.toNat 4)[j]? = some (x.extractLsb' (8 * (3 - j)) 8) := by
  rw [List.getElem?_eq_getElem (by simpa using hj), bytesBE_getElem]
  rfl

/-- Byte `j` of `BE32` counts from the most significant (R52). -/
theorem extractLsb'_be32 (a b c d : Byte) (j : Nat) (hj : j < 4) :
    some ((be32 a b c d).extractLsb' (8 * (3 - j)) 8) = [a, b, c, d][j]? := by
  rw [← bytesBE_word_getElem? _ j hj, bytesBE_be32]

/-- Byte `4i + j` of a block is the `j`-th most significant byte of its word `i` (R54). -/
theorem extractLsb'_blockWord (b : Block) (i : Fin 16) (j : Nat) (hj : j < 4) :
    (blockWord b i).extractLsb' (8 * (3 - j)) 8 = b[4 * i.val + j] := by
  apply Option.some.inj
  rw [blockWord, extractLsb'_be32 _ _ _ _ j hj]
  interval_cases j <;> rfl

/-- Settles O16: the schedule store after `LDBLK` opens with the words of the block; the two end bytes are byte 0 of
word 0 and byte 3 of word 15. -/
theorem blockBytesBecomeWords : Obligations.BlockBytesBecomeWords := by
  intro b s
  have word (i : Nat) (hi : i < 16) : (loadWords b s.w)[i] = blockWord b ⟨i, hi⟩ := loadWords_first b s.w ⟨i, hi⟩
  have byte (i : Nat) (hi : i < 16) (j : Nat) (hj : j < 4) :
      (loadWords b s.w)[i].extractLsb' (8 * (3 - j)) 8 = b[4 * i + j] := by
    rw [word i hi, extractLsb'_blockWord b ⟨i, hi⟩ j hj]
  exact ⟨_, exec_ldblk b s, word, byte, byte 0 (by decide) 0 (by decide), byte 15 (by decide) 3 (by decide)⟩

end Sys2Proof.Machine
end

section
/-! PROOFS. The order of execution (spec/20_memory.md R62, R63): a command's meaning depends on neither stream, so
commands that lie on the stream together do what they do one after the other. -/

namespace Sys2Proof.Machine

/-- Whatever the two streams hold, the command takes the rest of the state from `s` to `t`, leaves the command stream
and appends the status byte and the data bytes to the responses (R80, R82). -/
def AnswersOnAnyStreams (i : Instr) (s t : State) (status : Byte) (data : List Byte) : Prop :=
  ∀ cmd resp : List Byte,
    exec i { s with cmd := cmd, resp := resp } = .next { t with cmd := cmd, resp := resp ++ status :: data }

/-- `PAD`, `STAT` and `ENC` write nothing (R62, R121): their answer is all they do. -/
theorem reading_answers (i : Instr) (s : State) (reads : i = .stat ∨ i = .enc ∨ ∃ l, i = .pad l) :
    ∃ status data, AnswersOnAnyStreams i s s status data := by
  rcases reads with rfl | rfl | ⟨l, rfl⟩
  · exact ⟨okCode, bytesBE s.status.toNat 2, fun _ _ => exec_stat _⟩
  · by_cases h : s.hv = true
    · exact ⟨okCode, encodeDigest s.h, fun _ _ => exec_enc_ok _ h⟩
    · exact ⟨FaultCode.sequenceError.code, [], fun _ _ => exec_enc_error _ h⟩
  · by_cases h : l.toNat < 2 ^ 61
    · exact ⟨okCode, BitVec.ofNat 8 (9 + zeroCount l.toNat) :: padding l.toNat, fun _ _ => exec_pad_ok l _ h⟩
    · exact ⟨FaultCode.invalidLength.code, [], fun _ _ => exec_pad_error l _ h⟩

/-- Settles O40: the answer does not depend on the response stream, which is all that the first execution changed. -/
theorem readingCommandsChangeNothing : Obligations.ReadingCommandsChangeNothing := by
  intro i s reads
  obtain ⟨status, data, answers⟩ := reading_answers i s reads
  exact ⟨status :: data, answers s.cmd s.resp, answers s.cmd (s.resp ++ status :: data)⟩

/-- Every command gives one answer, which opens with a status byte (R63, R80), and neither its effect nor its answer
depends on the streams: its tests and its operands read the other fields only. -/
theorem exec_answers (i : Instr) (s : State) : ∃ t status data, AnswersOnAnyStreams i s t status data := by
  cases i with
  | pad l => exact ⟨s, reading_answers _ s (.inr (.inr ⟨l, rfl⟩))⟩
  | ldblk b => exact ⟨s.loadBlock b, okCode, [], fun _ _ => exec_ldblk b _⟩
  | wstep =>
    by_cases h : 16 ≤ s.wcnt.toNat ∧ s.wcnt.toNat ≤ 63
    · exact ⟨{ s with w := schedStep s.w s.wcnt.toNat, wcnt := s.wcnt + 1 }, okCode, [],
        fun _ _ => exec_wstep_ok _ h⟩
    · exact ⟨s, FaultCode.sequenceError.code, [], fun _ _ => exec_wstep_error _ h⟩
  | sched b => exact ⟨{ s.abandon with w := sched b, wcnt := 64 }, okCode, [], fun _ _ => exec_sched b _⟩
  | cinit =>
    by_cases h : s.hv = true
    · exact ⟨{ s with v := s.h, av := true, t := 0 }, okCode, [], fun _ _ => exec_cinit_ok _ h⟩
    · exact ⟨s, FaultCode.sequenceError.code, [], fun _ _ => exec_cinit_error _ h⟩
  | round =>
    by_cases h : s.av = true ∧ s.t.toNat < 64 ∧ s.t.toNat < s.wcnt.toNat
    · exact ⟨{ s with v := roundAt s.w s.v s.t.toNat, t := s.t + 1 }, okCode, [],
        fun _ _ => exec_round_ok _ h⟩
    · exact ⟨s, FaultCode.sequenceError.code, [], fun _ _ => exec_round_error _ h⟩
  | cfin =>
    by_cases h : s.av = true ∧ s.t.toNat = 64
    · exact ⟨{ s.abandon with h := addWords s.h s.v }, okCode, [], fun _ _ => exec_cfin_ok _ h⟩
    · exact ⟨s, FaultCode.sequenceError.code, [], fun _ _ => exec_cfin_error _ h⟩
  | compress =>
    by_cases h : s.hv = true ∧ s.wcnt.toNat = 64
    · exact ⟨{ s.abandon with h := compress s.w s.h, v := rounds 64 s.w s.h }, okCode, [],
        fun _ _ => exec_compress_ok _ h⟩
    · exact ⟨s, FaultCode.sequenceError.code, [], fun _ _ => exec_compress_error _ h⟩
  | block b =>
    by_cases h : s.hv = true
    · exact ⟨{ s.abandon with w := sched b, wcnt := 64, h := compress (sched b) s.h, v := rounds 64 (sched b) s.h },
        okCode, [], fun _ _ => exec_block_ok b _ h⟩
    · exact ⟨s, FaultCode.sequenceError.code, [], fun _ _ => exec_block_error b _ h⟩
  | enc => exact ⟨s, reading_answers _ s (.inr (.inl rfl))⟩
  | dec d =>
    by_cases h : d.length = 32
    · exact ⟨s.loadH (decodeDigest ⟨⟨d⟩, h⟩), okCode, [], fun _ _ => exec_dec_ok d _ h⟩
    · exact ⟨s, FaultCode.invalidDigestLength.code, [], fun _ _ => exec_dec_error d _ h⟩
  | init => exact ⟨s.loadH IV, okCode, [], fun _ _ => exec_init _⟩
  | stat => exact ⟨s, reading_answers _ s (.inl rfl)⟩
  | reset => exact ⟨s.clear, okCode, [], fun _ _ => exec_reset _⟩

/-- As many steps as there are encoded commands at the front of the stream execute them in order (R63), by induction on
the commands: a step executes the first one with the others still on the stream, which its meaning does not see. -/
theorem run_encodeSeq (is : List Instr) (s : State) (rest : List Byte) (wf : ∀ i ∈ is, WellFormed i = true)
    (quiet : s.resetPending = false) (front : s.cmd = encodeSeq is ++ rest) :
    Sys2Proof.core.run is.length s = execSeq is { s with cmd := rest } := by
  induction is generalizing s with
  | nil =>
    obtain rfl : s.cmd = rest := front
    rfl
  | cons i is ih =>
    obtain ⟨wf_i, wf_is⟩ := List.forall_mem_cons.mp wf
    obtain ⟨t, status, data, answers⟩ := exec_answers i s
    have front_i : s.cmd = encode i ++ (encodeSeq is ++ rest) := by
      rw [front, encodeSeq, List.flatMap_cons, List.append_assoc, encodeSeq]
    have goes := answers (encodeSeq is ++ rest) s.resp
    have ran := (stepRunsDecodedCommand s i _ wf_i quiet front_i).trans goes
    obtain ⟨-, quiet_t⟩ := exec_streams i _ _ goes
    rw [List.length_cons, core_run_next _ s _ ran, ih _ wf_is (quiet_t.trans quiet) rfl,
      execSeq_next i is _ _ (answers rest s.resp)]

/-- Commands executed one after the other append one non-empty answer each, in their order (R63). -/
theorem execSeq_answers (is : List Instr) (s : State) : ∃ answers : List (List Byte), answers.length = is.length ∧
    ∀ (k : Nat) (i : Instr) (answer : List Byte), is[k]? = some i → answers[k]? = some answer → answer ≠ [] ∧
      ∃ u v, execSeq (is.take k) s = .next u ∧ exec i u = .next v ∧
        u.resp = s.resp ++ (answers.take k).flatten ∧ v.resp = u.resp ++ answer := by
  induction is generalizing s with
  | nil => exact ⟨[], rfl, nofun⟩
  | cons i is ih =>
    obtain ⟨t, status, data, answers⟩ := exec_answers i s
    have goes := answers s.cmd s.resp
    obtain ⟨later, length_later, order⟩ := ih { t with cmd := s.cmd, resp := s.resp ++ status :: data }
    refine ⟨(status :: data) :: later, congrArg (· + 1) length_later, fun k j given at_k given_k => ?_⟩
    cases k with
    | zero =>
      cases at_k
      cases given_k
      exact ⟨List.cons_ne_nil _ _, s, _, rfl, goes, (List.append_nil _).symm, rfl⟩
    | succ k =>
      obtain ⟨nonempty_k, u, v, before, goes_k, resp_u, resp_v⟩ := order k j given at_k given_k
      refine ⟨nonempty_k, u, v, (execSeq_next i _ s _ goes).trans before, goes_k, ?_, resp_v⟩
      rw [resp_u, List.take_succ_cons, List.flatten_cons, List.append_assoc]

/-- Settles O8: the run of the stream is the sequence, and the sequence answers in order. -/
theorem streamRunsCommandsInOrder : Obligations.StreamRunsCommandsInOrder :=
  fun is s rest wf quiet front => ⟨run_encodeSeq is s rest wf quiet front, execSeq_answers is { s with cmd := rest }⟩

end Sys2Proof.Machine
end

section
/-! PROOFS. The decoder and the encoder are inverse to each other (spec/30_encoding.md R72 to R79, R83 to R87): whatever
is read from a stream is exactly the bytes taken from it. -/

namespace Sys2Proof

open Sys2Proof.Machine

/-- An operand of exactly `n` bytes, given to the command `mk`: what the formats `FL` and `FB` read after the opcode,
and `FD` after its count byte (R74 to R76). -/
def decodeFixed (n : Nat) (mk : Vector Byte n → Instr) (bs : List Byte) : Decoded :=
  match recv n bs with
  | some (x, tail) => .command (mk x) tail
  | none => .truncated

theorem decodeLength_eq_decodeFixed (bs : List Byte) :
    decodeLength bs = decodeFixed 8 (fun l => .pad (lengthOperand l)) bs := by
  rw [decodeLength, decodeFixed]
  cases recv 8 bs <;> rfl

theorem decodeBlock_eq_decodeFixed (mk : Block → Instr) (bs : List Byte) :
    decodeBlock mk bs = decodeFixed 64 mk bs := by
  rw [decodeBlock, decodeFixed]
  cases recv 64 bs <;> rfl

theorem decodeCounted_cons_eq_decodeFixed (n : Byte) (more : List Byte) :
    decodeCounted (n :: more) = decodeFixed n.toNat (fun d => .dec d.toList) more := by
  rw [decodeCounted, decodeFixed]
  cases recv n.toNat more <;> rfl

section Fixed
variable {n : Nat} (mk : Vector Byte n → Instr) {bs : List Byte}

/-- Enough bytes hold the operand, and what follows is left (R70). -/
theorem decodeFixed_of_le (enough : n ≤ bs.length) :
    ∃ x : Vector Byte n, decodeFixed n mk bs = .command (mk x) (bs.drop n) ∧ x.toList ++ bs.drop n = bs := by
  have taken : recv n bs = some (⟨⟨bs.take n⟩, by simpa using enough⟩, bs.drop n) := by rw [recv, dif_pos enough]
  exact ⟨_, by rw [decodeFixed, taken], (recv_some n bs _ _ taken).symm⟩

/-- Too few bytes hold no operand (R87). -/
theorem decodeFixed_of_lt (few : bs.length < n) : decodeFixed n mk bs = .truncated := by
  rw [decodeFixed, (recv_none n bs).mpr few]

/-- The operand takes `n` bytes, neither more nor fewer (R86). -/
theorem decodeFixed_size (bs : List Byte) :
    (n ≤ bs.length → ∃ i, decodeFixed n mk bs = .command i (bs.drop n)) ∧
      (bs.length < n → decodeFixed n mk bs = .truncated) := by
  refine ⟨fun enough => ?_, decodeFixed_of_lt mk⟩
  obtain ⟨x, read, -⟩ := decodeFixed_of_le mk enough
  exact ⟨mk x, read⟩

end Fixed

/-- The bytes of a length operand are read and written in the same order (R83). -/
theorem bytesBE_lengthOperand (l : Vector Byte 8) : bytesBE (lengthOperand l).toNat 8 = l.toList := by
  rw [lengthOperand_toNat]
  simpa using bytesBE_natBE l.toList

/-- A result of reading the operands of `o` from `bs` that drops no byte: a well-formed command of that opcode whose
operand bytes are exactly those taken (R79), unless too few have arrived (R87). -/
def ReadsOperands (o : Opcode) (bs : List Byte) (d : Decoded) : Prop :=
  d = .truncated ∨
    ∃ i rest, d = .command i rest ∧ i.opcode = o ∧ WellFormed i = true ∧ operandBytes i ++ rest = bs

/-- Reading `n` bytes after the operand bytes `before` drops no byte, when the command made of them is written so. -/
theorem decodeFixed_readsOperands {n : Nat} {mk : Vector Byte n → Instr} {o : Opcode} (before bs : List Byte)
    (written : ∀ x, (mk x).opcode = o ∧ WellFormed (mk x) = true ∧ operandBytes (mk x) = before ++ x.toList) :
    ReadsOperands o (before ++ bs) (decodeFixed n mk bs) := by
  rcases Nat.lt_or_ge bs.length n with few | enough
  · exact .inl (decodeFixed_of_lt mk few)
  · obtain ⟨x, read, split⟩ := decodeFixed_of_le mk enough
    obtain ⟨opcode, wf, bytes⟩ := written x
    exact .inr ⟨mk x, bs.drop n, read, opcode, wf, by rw [bytes, List.append_assoc, split]⟩

/-- No format drops a byte (R72 to R76, R79). -/
theorem decodeOperands_readsOperands (o : Opcode) (bs : List Byte) : ReadsOperands o bs (decodeOperands o bs) := by
  cases o with
  | pad =>
    rw [decodeOperands, decodeLength_eq_decodeFixed]
    exact decodeFixed_readsOperands [] bs fun l => ⟨rfl, rfl, bytesBE_lengthOperand l⟩
  | ldblk | sched | block =>
    rw [decodeOperands, decodeBlock_eq_decodeFixed]
    exact decodeFixed_readsOperands [] bs fun _ => ⟨rfl, rfl, rfl⟩
  | dec =>
    cases bs with
    | nil => exact .inl rfl
    | cons n more =>
      rw [decodeOperands, decodeCounted_cons_eq_decodeFixed]
      exact decodeFixed_readsOperands [n] more fun d =>
        ⟨rfl, by simp [WellFormed]; omega, by simp [operandBytes]⟩
  | wstep | cinit | round | cfin | compress | enc | init | stat | reset =>
    exact .inr ⟨_, bs, rfl, rfl, rfl, rfl⟩

/-- What the decoder finds where there is a byte: an illegal byte, which selects no command, or too few bytes, or a
command whose bytes open the stream (R78, R86, R87). -/
theorem decode_cons_cases (op : Byte) (bs : List Byte) :
    (Opcode.ofByte op = none ∧ decode (op :: bs) = .illegal op bs) ∨
      decode (op :: bs) = .truncated ∨
      ∃ i rest, decode (op :: bs) = .command i rest ∧ WellFormed i = true ∧ encode i ++ rest = op :: bs := by
  cases selected : Opcode.ofByte op with
  | none => exact .inl ⟨rfl, by simp [decode, selected]⟩
  | some o =>
    obtain rfl := Opcode.ofByte_some op o selected
    rw [decode_toByte_cons]
    refine .inr ((decodeOperands_readsOperands o bs).imp_right ?_)
    rintro ⟨i, rest, found, rfl, wf, rfl⟩
    exact ⟨i, rest, found, wf, rfl⟩

theorem decode_eq_noOpcode_iff (bs : List Byte) : decode bs = .noOpcode ↔ bs = [] := by
  refine ⟨fun found => ?_, fun empty => empty ▸ rfl⟩
  cases bs with
  | nil => rfl
  | cons op bs => rcases decode_cons_cases op bs with ⟨_, e⟩ | e | ⟨_, _, e, _⟩ <;> cases e.symm.trans found

/-- The decoder finds a command exactly when its bytes open the stream (R79, R86). -/
theorem decode_eq_command_iff (bs rest : List Byte) (i : Instr) :
    decode bs = .command i rest ↔ WellFormed i = true ∧ encode i ++ rest = bs := by
  refine ⟨fun found => ?_, fun ⟨wf, split⟩ => split ▸ decode_encode_append i rest wf⟩
  cases bs with
  | nil => cases found
  | cons op bs =>
    rcases decode_cons_cases op bs with ⟨_, e⟩ | e | ⟨_, _, e, written⟩ <;> cases e.symm.trans found
    exact written

/-- The decoder finds an illegal byte exactly when the first byte selects no command (R78). -/
theorem decode_eq_illegal_iff (bs rest : List Byte) (op : Byte) :
    decode bs = .illegal op rest ↔ bs = op :: rest ∧ (op.toNat = 0 ∨ 15 ≤ op.toNat) := by
  rw [← Opcode.ofByte_none]
  refine ⟨fun found => ?_, fun ⟨split, unselected⟩ => by simp [split, decode, unselected]⟩
  cases bs with
  | nil => cases found
  | cons op' bs =>
    rcases decode_cons_cases op' bs with ⟨unselected, e⟩ | e | ⟨_, _, e, _⟩ <;> cases e.symm.trans found
    exact ⟨rfl, unselected⟩

/-- Settles O1: each format reads back the operand bytes it is written as. -/
theorem decodeEncodeRoundTrip : Obligations.DecodeEncodeRoundTrip := decode_encode_append

/-- Settles O2: no format drops a byte. -/
theorem decodedBytesAreTheEncoding : Obligations.DecodedBytesAreTheEncoding :=
  fun bs rest i => (decode_eq_command_iff bs rest i).mp

/-- A stream splits into a command and a rest in one way only: the decoder finds the one that is there (R86). -/
theorem encode_append_inj (i₁ i₂ : Instr) (rest₁ rest₂ : List Byte) (wf₁ : WellFormed i₁ = true)
    (wf₂ : WellFormed i₂ = true) (same : encode i₁ ++ rest₁ = encode i₂ ++ rest₂) : i₁ = i₂ ∧ rest₁ = rest₂ :=
  Decoded.command.inj <|
    calc Decoded.command i₁ rest₁
      _ = decode (encode i₁ ++ rest₁) := (decode_encode_append i₁ rest₁ wf₁).symm
      _ = decode (encode i₂ ++ rest₂) := by rw [same]
      _ = .command i₂ rest₂ := decode_encode_append i₂ rest₂ wf₂

/-- How many operand bytes a format has, when the opcode alone says it (R72 to R76). -/
def Format.fixedSize (f : Format) : Option Nat :=
  match f with
  | .f0 => some 0
  | .fl => some 8
  | .fb => some 64
  | .fd => none

/-- A format of fixed size takes that many operand bytes (R86). -/
theorem decodeOperands_of_fixedSize (o : Opcode) (n : Nat) (fixed : o.format.fixedSize = some n) (bs : List Byte) :
    (n ≤ bs.length → ∃ i, decodeOperands o bs = .command i (bs.drop n)) ∧
      (bs.length < n → decodeOperands o bs = .truncated) := by
  cases o with
  | pad =>
    cases fixed
    rw [decodeOperands, decodeLength_eq_decodeFixed]
    exact decodeFixed_size _ bs
  | ldblk | sched | block =>
    cases fixed
    rw [decodeOperands, decodeBlock_eq_decodeFixed]
    exact decodeFixed_size _ bs
  | dec => cases fixed
  | wstep | cinit | round | cfin | compress | enc | init | stat | reset =>
    cases fixed
    exact ⟨fun _ => ⟨_, rfl⟩, nofun⟩

/-- What an opcode byte alone says of the size of its command, for all 256 bytes (R77, R86): one byte, nine or 65. -/
theorem fixedSize_of_byte (op : Byte) :
    (op.toNat ∈ [0x03, 0x05, 0x06, 0x07, 0x08, 0x0A, 0x0C, 0x0D, 0x0E] →
      (Opcode.ofByte op).bind (·.format.fixedSize) = some 0) ∧
    (op.toNat = 0x01 → (Opcode.ofByte op).bind (·.format.fixedSize) = some 8) ∧
    (op.toNat ∈ [0x02, 0x04, 0x09] → (Opcode.ofByte op).bind (·.format.fixedSize) = some 64) := by
  revert op
  decide

/-- A byte whose format has a fixed size opens a command of that size (R86). -/
theorem decode_cons_of_fixedSize (op : Byte) (n : Nat) (bs : List Byte)
    (fixed : (Opcode.ofByte op).bind (·.format.fixedSize) = some n) :
    (n ≤ bs.length → ∃ i, decode (op :: bs) = .command i (bs.drop n)) ∧
      (bs.length < n → decode (op :: bs) = .truncated) := by
  obtain ⟨o, selected, size⟩ := Option.bind_eq_some_iff.mp fixed
  obtain rfl := Opcode.ofByte_some op o selected
  rw [decode_toByte_cons]
  exact decodeOperands_of_fixedSize o n size bs

/-- Settles O3: the decoder finds what was encoded, so there is one splitting; the opcode's format, or `DEC`'s count
byte, gives the size of the operand, and `decodeFixed` takes just that. -/
theorem commandLengthFromOpcode : Obligations.CommandLengthFromOpcode := by
  refine ⟨encode_append_inj, fun op bs => ?_⟩
  obtain ⟨oneByte, length, block⟩ := fixedSize_of_byte op
  refine ⟨fun opens => ?_, fun opens => ?_, fun opens => ?_, fun opens => ⟨?_, ?_⟩, fun unselected => ?_⟩
  · exact (decode_cons_of_fixedSize op 0 bs (oneByte opens)).1 (Nat.zero_le _)
  · exact decode_cons_of_fixedSize op 8 bs (length opens)
  · exact decode_cons_of_fixedSize op 64 bs (block opens)
  · obtain rfl : op = Opcode.dec.toByte := BitVec.eq_of_toNat_eq opens
    rintro rfl
    rfl
  · obtain rfl : op = Opcode.dec.toByte := BitVec.eq_of_toNat_eq opens
    rintro n more rfl
    rw [decode_toByte_cons, decodeOperands, decodeCounted_cons_eq_decodeFixed]
    exact decodeFixed_size _ more
  · exact (decode_eq_illegal_iff _ _ _).mpr ⟨rfl, unselected⟩

/-- A proper part of the bytes of a command is truncated (R87): a command in it would be a second splitting of the whole
bytes, and its first byte selects that command's opcode. -/
theorem decode_of_proper_part (i : Instr) (got missing : List Byte) (wf : WellFormed i = true)
    (parts : encode i = got ++ missing) (started : got ≠ []) (unfinished : missing ≠ []) : decode got = .truncated := by
  cases found : decode got with
  | truncated => rfl
  | noOpcode => exact absurd ((decode_eq_noOpcode_iff got).mp found) started
  | illegal op rest =>
    obtain ⟨rfl, unselected⟩ := (decode_eq_illegal_iff got rest op).mp found
    obtain ⟨rfl, -⟩ := List.cons_eq_cons.mp parts
    rw [← Opcode.ofByte_none, Opcode.ofByte_toByte] at unselected
    cases unselected
  | command j rest =>
    obtain ⟨wf_j, rfl⟩ := (decode_eq_command_iff got rest j).mp found
    have same : encode i ++ [] = encode j ++ (rest ++ missing) := by rw [parts, List.append_nil, List.append_assoc]
    obtain ⟨-, nothing⟩ := encode_append_inj i j [] (rest ++ missing) wf wf_j same
    exact absurd (List.append_eq_nil_iff.mp nothing.symm).2 unfinished

/-- A table word stands for the command whose bytes it opens with, the first in bits 7..0 (log entry 16). -/
theorem decodeTableWord_of_bytes (nbits w : Nat) (i : Instr) (wf : WellFormed i = true)
    (short : (encode i).length ≤ longestCommand)
    (opens : (List.range (encode i).length).map (fun j => BitVec.ofNat 8 ((w % 2 ^ nbits) >>> (8 * j))) = encode i) :
    decodeTableWord nbits w = some i := by
  have front : (tableBytes nbits w).take (encode i).length = encode i := by
    rw [tableBytes, ← List.map_take, List.take_range, Nat.min_eq_left short, opens]
  obtain ⟨rest, split⟩ := List.prefix_iff_eq_take.mpr front.symm
  rw [decodeTableWord, (decode_eq_command_iff _ _ i).mpr ⟨wf, split⟩]

/-- Settles O4: the commands' bytes by the round trip, the illegal byte by its number, the table words by the bytes they
open with. -/
theorem workedEncodingsDecode : Obligations.WorkedEncodingsDecode := by
  refine ⟨?_, ?_, ?_, ?_, ?_, ?_⟩
  · exact decode_encode_append (.pad 3) [] rfl
  · exact decode_encode_append .init [0x0a] rfl
  · exact decode_encode_append (.dec [0, 1, 2, 3]) [] rfl
  · exact (decode_eq_illegal_iff _ _ _).mpr ⟨rfl, .inl rfl⟩
  · exact decodeTableWord_of_bytes 8 _ .wstep rfl (by decide) rfl
  · exact decodeTableWord_of_bytes 72 _ (.pad 3) rfl (by decide) rfl

end Sys2Proof
end

section
/-! PROOFS. When a step is taken and when the block waits (spec/30_encoding.md R78, R87, spec/70_reset_and_hazards.md
R260), and the response of every command (R80, R82). -/

namespace Sys2Proof.Machine

/-- Settles O6: a proper part of a command is truncated, and with the missing bytes the stream is its encoding. -/
theorem truncatedCommandHasNoStep : Obligations.TruncatedCommandHasNoStep := by
  intro s i got missing wf parts started unfinished quiet arrived
  have truncated : decode s.cmd = .truncated :=
    arrived ▸ decode_of_proper_part i got missing wf parts started unfinished
  have whole : (s.hostSend missing).cmd = encode i ++ [] := by
    rw [State.hostSend_cmd, arrived, parts, List.append_nil]
  exact ⟨step_of_fetch_waiting s _ (fetch_of_decode_truncated s quiet truncated),
    stepRunsDecodedCommand (s.hostSend missing) i [] wf quiet whole⟩

/-- Settles O7: the decoder finds an illegal byte for these first bytes and no other, and the step answers its code. -/
theorem illegalByteAnswersOneCode : Obligations.IllegalByteAnswersOneCode := by
  intro s op rest quiet front
  refine ⟨fun illegal => ?_, fun legal op' rest' found => ?_⟩
  · have found : decode s.cmd = .illegal op rest := (decode_eq_illegal_iff _ _ _).mpr ⟨front, illegal⟩
    exact step_of_decode_illegal s op rest quiet found
  · obtain ⟨split, illegal⟩ := (decode_eq_illegal_iff _ _ _).mp found
    obtain ⟨rfl, -⟩ := List.cons_eq_cons.mp (front.symm.trans split)
    exact legal illegal

/-- Every command completes, OK or with its fault (R260). -/
theorem exec_next (i : Instr) (s : State) : ∃ t, exec i s = .next t := by
  rcases exec_form i s with ⟨s', data, ran, -⟩ | ⟨f, -, ran⟩
  · exact ⟨_, ran⟩
  · exact ⟨_, ran⟩

/-- There is something for a step to do: a reset to take, or a whole command or an illegal byte (R78, R87, R250). -/
def State.CanStep (s : State) : Prop :=
  s.resetPending = true ∨ (decode s.cmd ≠ .noOpcode ∧ decode s.cmd ≠ .truncated)

/-- A step goes on when there is something to do, and waits when there is not; it does nothing else. -/
theorem step_cases (s : State) :
    (s.CanStep ∧ ∃ t, step s = .next t) ∨ (¬s.CanStep ∧ ∃ why, step s = .fault why) := by
  cases pending : s.resetPending with
  | true => exact .inl ⟨.inl pending, _, step_of_pending s pending⟩
  | false =>
    cases found : decode s.cmd with
    | command i rest =>
      rw [step_of_decode_command s i rest pending found]
      exact .inl ⟨.inr (by simp [found]), exec_next i _⟩
    | illegal op rest => exact .inl ⟨.inr (by simp [found]), _, step_of_decode_illegal s op rest pending found⟩
    | noOpcode =>
      exact .inr ⟨by simp [State.CanStep, pending, found], _,
        step_of_fetch_waiting s _ (fetch_of_decode_noOpcode s pending found)⟩
    | truncated =>
      exact .inr ⟨by simp [State.CanStep, pending, found], _,
        step_of_fetch_waiting s _ (fetch_of_decode_truncated s pending found)⟩

/-- Settles O9: every meaning completes, and a step either goes on or waits. -/
theorem blockStopsOnlyToWait : Obligations.BlockStopsOnlyToWait := by
  refine ⟨exec_next, fun s => ?_, fun s why refused => ?_⟩
  · rcases step_cases s with ⟨can, goes⟩ | ⟨cannot, why, waits⟩
    · exact iff_of_true goes can
    · exact iff_of_false (by simp [waits]) cannot
  · rcases step_cases s with ⟨-, t, goes⟩ | ⟨-, why', waits⟩
    · cases goes.symm.trans refused
    · cases waits.symm.trans refused

/-- The two bytes of a 16-bit register, the most significant first (R53). -/
theorem bytesBE_two (x : BitVec 16) : bytesBE x.toNat 2 = [x.extractLsb' 8 8, x.extractLsb' 0 8] := rfl

/-- `PADLEN` fits its byte and is in `9 .. 72` (R82, R122). -/
theorem padLen_toNat (len : Nat) :
    (BitVec.ofNat 8 (9 + zeroCount len)).toNat = (padding len).length ∧
      9 ≤ (padding len).length ∧ (padding len).length ≤ 72 := by
  have bound : zeroCount len ≤ 63 := by rw [zeroCount_eq]; split <;> omega
  rw [padding_length, BitVec.toNat_ofNat]
  omega

section OkResponse
variable {s t : State} {data : List Byte}

/-- `ENC` answers OK with the digest alone (R173). -/
theorem data_of_enc (ran : exec .enc s = .next t) (answered : t.resp = s.resp ++ okCode :: data) :
    data = encodeDigest s.h := by
  by_cases h : s.hv = true
  · cases (exec_enc_ok s h).symm.trans ran
    simpa using answered.symm
  · cases (exec_enc_error s h).symm.trans ran
    simp [FaultCode.code_ne_ok] at answered

/-- `STAT` answers the two bytes of `STATUS`, the most significant first (R185). -/
theorem data_of_stat (ran : exec .stat s = .next t) (answered : t.resp = s.resp ++ okCode :: data) :
    data = [s.status.extractLsb' 8 8, s.status.extractLsb' 0 8] := by
  cases (exec_stat s).symm.trans ran
  simpa [bytesBE_two] using answered.symm

/-- `PAD L` answers OK with `PADLEN` and the padding alone (R121). -/
theorem data_of_pad {l : BitVec 64} (ran : exec (.pad l) s = .next t)
    (answered : t.resp = s.resp ++ okCode :: data) :
    data = BitVec.ofNat 8 (9 + zeroCount l.toNat) :: padding l.toNat := by
  by_cases h : l.toNat < 2 ^ 61
  · cases (exec_pad_ok l s h).symm.trans ran
    simpa using answered.symm
  · cases (exec_pad_error l s h).symm.trans ran
    simp [FaultCode.code_ne_ok] at answered

end OkResponse

/-- Settles O44: the one form of every meaning gives the status and the number of data bytes; which bytes they are, the
three commands that return data say; and `STAT` has no fault in its row. -/
theorem oneResponsePerCommand : Obligations.OneResponsePerCommand := by
  intro i s
  rcases exec_form i s with ⟨s', data, ran, resp, -, -, length⟩ | ⟨f, row, ran⟩
  · have answered : (s'.send (okCode :: data)).resp = s.resp ++ okCode :: data := by rw [State.send_resp, resp]
    refine ⟨_, okCode, data, ran, answered, fun _ => length, fun fault => absurd rfl fault, ?_, ?_, ?_⟩
    · rintro rfl -
      exact data_of_enc ran answered
    · rintro rfl
      exact ⟨rfl, data_of_stat ran answered⟩
    · rintro l rfl -
      obtain ⟨fits, least, greatest⟩ := padLen_toNat l.toNat
      exact ⟨_, data_of_pad ran answered, fits.symm, fits ▸ least, fits ▸ greatest⟩
  · have not_ok : f.code ≠ 0x00 := f.code_ne_ok
    refine ⟨_, f.code, [], ran, rfl, fun ok => absurd ok not_ok, fun _ => ⟨rfl, rfl⟩, fun _ ok => absurd ok not_ok, ?_,
      fun _ _ ok => absurd ok not_ok⟩
    rintro rfl
    cases row

end Sys2Proof.Machine
end

section
/-! PROOFS. Word addition and rotation, choice and majority, and what is linear over exclusive-or
(spec/40_word_arithmetic.md R101, R102, R105, R106, R111). -/

namespace Sys2Proof.Machine

/-- The sum is exact before it is reduced, once (R101). -/
theorem add32_toNat (xs : List Word) : (add32 xs).toNat = (xs.map BitVec.toNat).sum % 2 ^ 32 :=
  BitVec.toNat_ofNat _ _

theorem add32_perm {xs ys : List Word} (perm : xs.Perm ys) : add32 xs = add32 ys := by
  rw [add32, (perm.map BitVec.toNat).sum_eq, add32]

/-- Settles O11: the sum is reduced once, and sums of naturals may be grouped and permuted. -/
theorem additionWrapsInAnyOrder : Obligations.AdditionWrapsInAnyOrder :=
  fun xs ys => ⟨add32_toNat xs, by simp [add32_append], add32_perm⟩

/-- The masked shift formula of R102: the mask is the reduction modulo `2^32` that a word's left shift makes. -/
theorem rotr_toNat (n : Nat) (x : Word) (bounds : 0 < n ∧ n < 32) :
    (rotr n x bounds).toNat = (x.toNat >>> n) ||| ((x.toNat <<< (32 - n)) &&& 0xFFFFFFFF) := by
  have mask (k : Nat) : k &&& 0xFFFFFFFF = k % 2 ^ 32 := Nat.and_two_pow_sub_one_eq_mod k 32
  rw [rotr, BitVec.toNat_or, BitVec.toNat_ushiftRight, BitVec.toNat_shiftLeft, mask]

/-- Rotations add up, since the moves of a bit do: `((i + a) mod 32 + b) mod 32 = (i + (a + b)) mod 32` (R102). -/
theorem rotr_rotr (a b : Nat) (x : Word) (ha : 0 < a ∧ a < 32) (hb : 0 < b ∧ b < 32)
    (hab : 0 < a + b ∧ a + b < 32) : rotr a (rotr b x hb) ha = rotr (a + b) x hab := by
  apply BitVec.eq_of_getLsbD_eq
  intro i hi
  rw [rotr_getLsbD _ _ _ _ hi, rotr_getLsbD _ _ _ _ (Nat.mod_lt _ (by decide)), rotr_getLsbD _ _ _ _ hi,
    Nat.mod_add_mod, Nat.add_assoc]

theorem rotr_zero (n : Nat) (bounds : 0 < n ∧ n < 32) : rotr n 0 bounds = 0 := by
  simp [rotr]

theorem rotr_allOnes (n : Nat) (bounds : 0 < n ∧ n < 32) :
    rotr n (BitVec.allOnes 32) bounds = BitVec.allOnes 32 := by
  apply BitVec.eq_of_getLsbD_eq
  intro i hi
  have hmod : (i + n) % 32 < 32 := Nat.mod_lt _ (by decide)
  rw [rotr_getLsbD _ _ _ _ hi, BitVec.getLsbD_allOnes, BitVec.getLsbD_allOnes, decide_eq_true hmod, decide_eq_true hi]

/-- Bit 0 moves to bit `32 - n`: the right shift loses it and the left shift brings it back in. -/
theorem rotr_one_toNat (n : Nat) (bounds : 0 < n ∧ n < 32) : (rotr n 1 bounds).toNat = 2 ^ (32 - n) := by
  have one : (1 : Word).toNat = 1 := rfl
  have lost : 1 / 2 ^ n = 0 := Nat.div_eq_of_lt (Nat.one_lt_two_pow (by omega))
  have kept : 2 ^ (32 - n) < 2 ^ 32 := Nat.pow_lt_pow_right (by decide) (by omega)
  rw [rotr, BitVec.toNat_or, BitVec.toNat_ushiftRight, BitVec.toNat_shiftLeft, one,
    Nat.shiftRight_eq_div_pow, lost, Nat.one_shiftLeft, Nat.mod_eq_of_lt kept, Nat.zero_or]

/-- Settles O12: the formula by the mask, the rest by where each bit goes. -/
theorem rotationMovesBits : Obligations.RotationMovesBits :=
  ⟨fun n bounds x => rotr_toNat n x bounds, fun n bounds x i hi => rotr_getLsbD n x bounds i hi,
    fun a b ha hb hab x => rotr_rotr a b x ha hb hab,
    fun n bounds => ⟨rotr_zero n bounds, rotr_allOnes n bounds, rotr_one_toNat n bounds⟩⟩

/-- Each bit of `x` chooses the bit of `y` or of `z` (R105). -/
theorem choice_getLsbD (x y z : Word) (i : Nat) (hi : i < 32) :
    (choice x y z).getLsbD i = if x.getLsbD i then y.getLsbD i else z.getLsbD i := by
  simp only [choice, BitVec.getLsbD_xor, BitVec.getLsbD_and, BitVec.getLsbD_not, hi]
  cases x.getLsbD i <;> simp

/-- No bit is in both terms, so exclusive-or and or give the same (R105). -/
theorem choice_eq_or (x y z : Word) : choice x y z = (x &&& y) ||| (~~~x &&& z) := by
  apply BitVec.eq_of_getLsbD_eq
  intro i hi
  simp only [choice_getLsbD x y z i hi, BitVec.getLsbD_or, BitVec.getLsbD_and, BitVec.getLsbD_not, hi]
  cases x.getLsbD i <;> simp

/-- A bit of the majority counts the operands that have it (R106). -/
theorem majority_getLsbD (x y z : Word) (i : Nat) :
    (majority x y z).getLsbD i = true ↔
      2 ≤ (x.getLsbD i).toNat + (y.getLsbD i).toNat + (z.getLsbD i).toNat := by
  simp only [majority, BitVec.getLsbD_xor, BitVec.getLsbD_and]
  generalize x.getLsbD i = a, y.getLsbD i = b, z.getLsbD i = c
  revert a b c
  decide

/-- The first two operands may be exchanged, since the count may. -/
theorem majority_swap_left (x y z : Word) : majority x y z = majority y x z := by
  apply BitVec.eq_of_getLsbD_eq
  intro i _
  rw [Bool.eq_iff_iff, majority_getLsbD, majority_getLsbD, Nat.add_comm (x.getLsbD i).toNat]

/-- The last two operands may be exchanged, since the count may. -/
theorem majority_swap_right (x y z : Word) : majority x y z = majority x z y := by
  apply BitVec.eq_of_getLsbD_eq
  intro i _
  rw [Bool.eq_iff_iff, majority_getLsbD, majority_getLsbD, Nat.add_right_comm]

/-- Settles O13: one bit of each operand decides each result bit. -/
theorem choiceAndMajorityPerBit : Obligations.ChoiceAndMajorityPerBit :=
  fun x y z => ⟨choice_getLsbD x y z, fun i _ => majority_getLsbD x y z i, choice_eq_or x y z,
    majority_swap_left x y z, majority_swap_right x y z⟩

/-- `f` distributes over exclusive-or (R111). -/
def XorLinear (f : Word → Word) : Prop :=
  ∀ x y, f (x ^^^ y) = f x ^^^ f y

theorem xorLinear_rotr (n : Nat) (bounds : 0 < n ∧ n < 32) : XorLinear (rotr n · bounds) :=
  fun x y => rotr_xor n x y bounds

theorem xorLinear_shr (n : Nat) : XorLinear (shr n) :=
  shr_xor n

/-- The exclusive-or of three linear functions is linear: this is the form of every sigma (R107 to R110). -/
theorem XorLinear.xor₃ {f g h : Word → Word} (hf : XorLinear f) (hg : XorLinear g) (hh : XorLinear h) :
    XorLinear fun x => f x ^^^ g x ^^^ h x := by
  intro x y
  simp only [hf x y, hg x y, hh x y]
  ac_rfl

theorem xorLinear_bigSigma0 : XorLinear bigSigma0 :=
  (xorLinear_rotr 2 _).xor₃ (xorLinear_rotr 13 _) (xorLinear_rotr 22 _)

theorem xorLinear_bigSigma1 : XorLinear bigSigma1 :=
  (xorLinear_rotr 6 _).xor₃ (xorLinear_rotr 11 _) (xorLinear_rotr 25 _)

theorem xorLinear_smallSigma0 : XorLinear smallSigma0 :=
  (xorLinear_rotr 7 _).xor₃ (xorLinear_rotr 18 _) (xorLinear_shr 3)

theorem xorLinear_smallSigma1 : XorLinear smallSigma1 :=
  (xorLinear_rotr 17 _).xor₃ (xorLinear_rotr 19 _) (xorLinear_shr 10)

/-- Settles O14: the sigmas are made of linear functions. The carry out of bit 31 is lost in the sum of two words
`0x80000000` and not in the sum of their sigmas; `choice` and `majority` give 0 on each of two triples with a single 1
and 1 on the triple of both. -/
theorem sigmasAreLinear : Obligations.SigmasAreLinear := by
  refine ⟨fun n bounds x y => ⟨rotr_xor n x y bounds, shr_xor n x y⟩,
    fun x y => ⟨xorLinear_bigSigma0 x y, xorLinear_bigSigma1 x y, xorLinear_smallSigma0 x y, xorLinear_smallSigma1 x y⟩,
    ?_, ?_, ?_, ?_, ?_, ?_, ?_, ?_⟩
  · exact ⟨1, 0, 0, 0, 1, 0, by decide⟩
  · exact ⟨1, 0, 0, 0, 1, 0, by decide⟩
  · exact ⟨0x80000000, 0x80000000, by decide⟩
  · exact ⟨0x80000000, 0x80000000, by decide⟩
  · exact ⟨0x80000000, 0x80000000, by decide⟩
  · exact ⟨0x80000000, 0x80000000, by decide⟩
  · exact ⟨1, 0, 0, 0, 1, 0, by decide⟩
  · exact ⟨1, 0, 0, 0, 1, 0, by decide⟩

end Sys2Proof.Machine
end

section
/-! PROOFS. The padding of a length and the command that answers it (spec/41_padding.md R120 to R124, R127). -/

namespace Sys2Proof.Machine

/-- The zero count is the remainder of R120 itself, which is not negative. -/
theorem zeroCount_cast (len : Nat) : (zeroCount len : Int) = ((55 : Int) - (len % 64 : Nat)) % 64 :=
  Int.toNat_of_nonneg (Int.emod_nonneg _ (by decide))

theorem zeroCount_of_low (len : Nat) (low : len % 64 ≤ 55) : zeroCount len = 55 - len % 64 := by
  rw [zeroCount_eq, if_pos low]

theorem zeroCount_of_high (len : Nat) (high : 56 ≤ len % 64) : zeroCount len = 119 - len % 64 := by
  rw [zeroCount_eq, if_neg (by omega)]

theorem zeroCount_le (len : Nat) : zeroCount len ≤ 63 := by
  have below := Int.emod_lt_of_pos ((55 : Int) - (len % 64 : Nat)) (show 0 < 64 by decide)
  rw [← zeroCount_cast] at below
  omega

/-- With `0x80` and the zeros, the message ends eight bytes short of a whole block (R120). -/
theorem zeroCount_reaches (len : Nat) : (len + 1 + zeroCount len) % 64 = 56 := by
  have count := zeroCount_cast len
  omega

/-- Counts that reach 56 differ by multiples of 64, and the zero count is below 64: no smaller one reaches it (R120). -/
theorem zeroCount_least (len j : Nat) (fewer : j < zeroCount len) : (len + 1 + j) % 64 ≠ 56 := by
  have reaches := zeroCount_reaches len
  have below := zeroCount_le len
  omega

/-- The bit length fills the eight bytes that the zeros leave, so the padded length is whole blocks (R122). -/
theorem padded_length_aligned (len : Nat) : (len + (padding len).length) % 64 = 0 := by
  have reaches := zeroCount_reaches len
  rw [padding_length]
  omega

/-- Settles O18: `k` is the zero count. -/
theorem paddingIsShortestToBlock : Obligations.PaddingIsShortestToBlock := by
  intro len
  obtain ⟨-, least, greatest⟩ := padLen_toNat len
  have length := padding_length len
  refine ⟨zeroCount len, rfl, zeroCount_reaches len, zeroCount_least len, zeroCount_cast len, fun low => ?_,
    fun high => ?_, by omega, least, greatest, padded_length_aligned len⟩
  · have count := zeroCount_of_low len low
    omega
  · have count := zeroCount_of_high len high
    omega

/-- The last eight bytes of a padding are its bit length (R120). -/
theorem padding_drop (len : Nat) : (padding len).drop ((padding len).length - 8) = bytesBE (len * 8) 8 := by
  have front : (padding len).length - 8 = (0x80 :: List.replicate (zeroCount len) (0x00 : Byte)).length := by
    rw [padding_length, List.length_cons, List.length_replicate]
    omega
  rw [front]
  exact List.drop_left

/-- Settles O19: a length below `2^61` has a bit length below `2^64`, which eight bytes hold. -/
theorem paddingEndsInBitLength : Obligations.PaddingEndsInBitLength := by
  intro len small
  refine ⟨padded_length_aligned len, ?_⟩
  rw [padding_drop, natBE_bytesBE]
  exact Nat.mod_eq_of_lt (by omega)

/-- A length is at least `2^61` exactly when one of the operand's top three bits is set (R123). -/
theorem le_toNat_iff_topBits (l : BitVec 64) :
    2 ^ 61 ≤ l.toNat ↔ l.getLsbD 63 = true ∨ l.getLsbD 62 = true ∨ l.getLsbD 61 = true := by
  constructor
  · intro large
    obtain ⟨i, above, set⟩ := Nat.exists_ge_and_testBit_of_ge_two_pow large
    have width : i < 64 := BitVec.lt_of_getLsbD set
    obtain rfl | rfl | rfl : i = 63 ∨ i = 62 ∨ i = 61 := by omega
    · exact .inl set
    · exact .inr (.inl set)
    · exact .inr (.inr set)
  · have atLeast (i : Nat) (above : 61 ≤ i) (set : l.getLsbD i = true) : 2 ^ 61 ≤ l.toNat :=
      (Nat.pow_le_pow_right (by decide) above).trans (Nat.ge_two_pow_of_testBit set)
    rintro (set | set | set)
    · exact atLeast 63 (by decide) set
    · exact atLeast 62 (by decide) set
    · exact atLeast 61 le_rfl set

/-- Settles O20: the two answers of `PAD`, `PADLEN` being the length of the padding. -/
theorem padResult : Obligations.PadResult := by
  intro l s
  refine ⟨rfl, fun small => ?_, fun large => exec_pad_error l s (Nat.not_lt.mpr large), le_toNat_iff_topBits l⟩
  rw [exec_pad_ok l s small, padding_length]
  rfl

end Sys2Proof.Machine
end

section
/-! PROOFS. Repeated commands and sequences of commands: what a repeated operation of a composite command says about the
same command sent that often (spec/42_scheduler.md R133), and predicates that every command of a sequence keeps. -/

namespace Sys2Proof.Machine

/-- Bytes already answered do not matter to the operation, and it keeps them. -/
def IgnoresResponses (op : State → Except FaultCode State) : Prop :=
  ∀ (s t : State) (bytes : List Byte), op s = .ok t → op (s.send bytes) = .ok (t.send bytes)

/-- A repetition that goes well goes well in its first operation and in the others. -/
theorem repeatOp_succ_ok (op : State → Except FaultCode State) (n : Nat) (s t : State)
    (goes : repeatOp (n + 1) op s = .ok t) : ∃ u, op s = .ok u ∧ repeatOp n op u = .ok t := by
  rw [repeatOp] at goes
  cases first : op s with
  | ok u => exact ⟨u, rfl, by rwa [first, bind_ok] at goes⟩
  | error f => rw [first, bind_error] at goes; cases goes

theorem repeatOp_ignoresResponses (op : State → Except FaultCode State) (ignores : IgnoresResponses op) (n : Nat) :
    IgnoresResponses (repeatOp n op) := by
  induction n with
  | zero => rintro s _ bytes ⟨⟩; rfl
  | succ n ih =>
    intro s t bytes goes
    obtain ⟨u, first, others⟩ := repeatOp_succ_ok op n s t goes
    rw [repeatOp, ignores s u bytes first, bind_ok]
    exact ih u t bytes others

/-- A command sent `n` times does what its operation repeated `n` times does, with a response each time. -/
theorem execSeq_replicate (i : Instr) (op : State → Except FaultCode State)
    (meaning : ∀ s, exec i s = finishQuiet s (op s)) (ignores : IgnoresResponses op) (n : Nat) (s t : State)
    (goes : repeatOp n op s = .ok t) :
    execSeq (List.replicate n i) s = .next (t.send (List.replicate n okCode)) := by
  induction n generalizing s t with
  | zero => cases goes; simp [State.send]
  | succ n ih =>
    obtain ⟨u, first, others⟩ := repeatOp_succ_ok op n s t goes
    have answered : exec i s = .next (u.send [okCode]) := by rw [meaning, first, finishQuiet_ok]
    have later := repeatOp_ignoresResponses op ignores n u t [okCode] others
    rw [List.replicate_succ, execSeq_next _ _ _ _ answered, ih _ _ later, State.send_send]
    rfl

/-- What every command of a sequence keeps, the sequence keeps. -/
theorem execSeq_keeps (P : State → Prop) (is : List Instr)
    (keeps : ∀ i ∈ is, ∀ s t, P s → exec i s = .next t → P t) (s t : State) (start : P s)
    (ran : execSeq is s = .next t) : P t := by
  induction is generalizing s with
  | nil => cases ran; exact start
  | cons i is ih =>
    obtain ⟨keeps_i, keeps_is⟩ := List.forall_mem_cons.mp keeps
    obtain ⟨u, status, data, answers⟩ := exec_answers i s
    have goes := answers s.cmd s.resp
    rw [execSeq_next i is s _ goes] at ran
    exact ih keeps_is _ (keeps_i s _ start goes) ran

end Sys2Proof.Machine
end

section
/-! PROOFS. The Message Scheduler (spec/42_scheduler.md R130 to R133): the schedule of a block, and the results and
frames of `LDBLK`, `WSTEP` and `SCHED`. -/

namespace Sys2Proof.Machine

/-- Settles O21: the words of the block, then the recurrence, which is what `nextWord` computes. -/
theorem scheduleObeysRecurrence : Obligations.ScheduleObeysRecurrence :=
  fun b => ⟨fun t below => sched_first b ⟨t, below⟩, fun t inRange => sched_recurrence b t inRange⟩

/-- Settles O22: loading a block writes the first sixteen words and leaves the others. -/
theorem ldblkResult : Obligations.LdblkResult := by
  intro b s
  refine ⟨rfl, _, exec_ldblk b s, fun i below => ?_, fun i hi above => ?_,
    rfl, rfl, rfl, rfl, rfl, rfl, rfl, rfl, rfl, rfl⟩
  · exact loadWords_first b s.w ⟨i, below⟩
  · exact loadWords_rest b s.w i hi above

/-- Settles O23: in range the step writes the word `WCNT` names and no other, and counts on without wrapping. -/
theorem wstepResult : Obligations.WstepResult := by
  intro s
  refine ⟨rfl, ?_, fun outside => exec_wstep_error s (by omega)⟩
  rintro _ inRange rfl
  refine ⟨_, exec_wstep_ok s inRange, ?_, fun i hi other => ?_, ?_, rfl, rfl, rfl, rfl, rfl, rfl, rfl, rfl, rfl⟩
  · exact schedStep_same s.w _ inRange
  · exact schedStep_other s.w _ i hi other
  · exact counter_succ s.wcnt (by omega)

/-- `WSTEP` reads and writes the schedule store and its count only (R132). -/
theorem wstepOp_ignoresResponses : IgnoresResponses wstepOp := by
  intro s t bytes goes
  by_cases ready : 16 ≤ s.wcnt.toNat ∧ s.wcnt.toNat ≤ 63
  · rw [wstepOp_ok s ready] at goes
    cases goes
    exact wstepOp_ok (s.send bytes) ready
  · rw [wstepOp_error s ready] at goes
    cases goes

/-- `LDBLK b` and 48 times `WSTEP` leave the schedule of `b`, with a response each (R133). -/
theorem execSeq_schedSteps (b : Block) (s : State) : execSeq (schedSteps b) s =
    .next (State.send (List.replicate 49 okCode) { s.abandon with w := sched b, wcnt := 64 }) := by
  have steps := repeatOp_ignoresResponses wstepOp wstepOp_ignoresResponses 48 _ _ [okCode] (schedOp_eq b s)
  rw [schedSteps, execSeq_next _ _ _ _ (exec_ldblk b s),
    execSeq_replicate .wstep wstepOp (fun _ => rfl) wstepOp_ignoresResponses 48 _ _ steps, State.send_send]
  rfl

/-- Settles O24: both ways leave the same state but for the responses, and its schedule is complete. -/
theorem schedResult : Obligations.SchedResult := by
  intro b s
  have once := exec_sched b s
  refine ⟨rfl, once, _, execSeq_schedSteps b s, rfl, once, ?_⟩
  exact exec_wstep_error _ (by simp)

end Sys2Proof.Machine
end

section
/-! PROOFS. Rounds and schedule steps in any order compute the compression of the block loaded (spec/42_scheduler.md
R132, spec/43_compression.md R148, R149, decision D25). -/

namespace Sys2Proof.Machine

/-- `WSTEP` and `ROUND`, refused or not, keep the invariants for the block loaded, and leave `H` as it was. -/
theorem wstep_or_round_keeps (b : Block) (h : Words8) (i : Instr) (which : i = .wstep ∨ i = .round) (s t : State)
    (start : s.Inv (some b) ∧ s.h = h) (goes : exec i s = .next t) : t.Inv (some b) ∧ t.h = h := by
  obtain ⟨inv, sameH⟩ := start
  rcases which with rfl | rfl
  · by_cases ready : 16 ≤ s.wcnt.toNat ∧ s.wcnt.toNat ≤ 63
    · rw [exec_wstep_ok s ready] at goes
      cases goes
      exact ⟨(inv.wstep ready).send _, sameH⟩
    · rw [exec_wstep_error s ready] at goes
      cases goes
      exact ⟨inv.send _, sameH⟩
  · by_cases ready : s.av = true ∧ s.t.toNat < 64 ∧ s.t.toNat < s.wcnt.toNat
    · rw [exec_round_ok s ready] at goes
      cases goes
      exact ⟨(inv.round ready).send _, sameH⟩
    · rw [exec_round_error s ready] at goes
      cases goes
      exact ⟨inv.send _, sameH⟩

/-- When 64 rounds are done the whole schedule is there: it is that of the block last loaded. -/
theorem State.Inv.w_eq_sched {b : Block} {s : State} (inv : s.Inv (some b)) (done : s.t.toNat = 64) :
    s.w = sched b := by
  have whole : 64 ≤ s.wcnt.toNat := done ▸ inv.t_le_wcnt
  obtain ⟨_, ⟨⟩, first⟩ := inv.block_words (by omega)
  exact eq_sched_of_recurrence b s.w first fun t inRange => inv.recurrence t inRange (by omega)

/-- Rounds are counted only while a compression is in progress (R31 (b)). -/
theorem State.Inv.running_of_done {last : Option Block} {s : State} (inv : s.Inv last) (done : s.t.toNat = 64) :
    s.av = true := by
  by_contra stopped
  have zero := inv.av_t (Bool.eq_false_of_not_eq_true stopped)
  simp [zero] at done

/-- When 64 rounds are done, adding `V` into `H` is compressing the block last loaded (R145, R149). -/
theorem State.Inv.addWords_eq_compress {b : Block} {s : State} (inv : s.Inv (some b)) (done : s.t.toNat = 64) :
    addWords s.h s.v = compress (sched b) s.h := by
  rw [inv.partial_rounds (inv.running_of_done done), done, inv.w_eq_sched done, compress]

/-- Settles O32: `LDBLK b` and `CINIT` establish the invariants for `b`, every later command keeps them, and after 64
rounds they say what `CFIN` adds. -/
theorem interleavedStepsGiveCompression : Obligations.InterleavedStepsGiveCompression := by
  intro s t b steps seeded which ran done
  rw [execSeq_next _ _ _ _ (exec_ldblk b s),
    execSeq_next _ _ _ _ (exec_cinit_ok ((s.loadBlock b).send [okCode]) seeded)] at ran
  have begun := (((State.loadBlock_inv b s).send [okCode]).cinit seeded).send [okCode]
  obtain ⟨inv, sameH⟩ := execSeq_keeps (fun u => u.Inv (some b) ∧ u.h = s.h) steps
    (fun i given => wstep_or_round_keeps b s.h i (which i given)) _ t ⟨begun, rfl⟩ ran
  rw [exec_cfin_ok t ⟨inv.running_of_done done, done⟩, inv.addWords_eq_compress done, sameH]
  rfl

end Sys2Proof.Machine
end

section
/-! PROOFS. The round constants against their definition: the listed numbers are the primes by trial division, and each
constant is the fractional part of an integer cube root whose whole part is found by counting (spec/43_compression.md
R146). -/

namespace Sys2Proof.Machine

/-- `p` is at least 2, and no number from 2 to 17 whose square is at most `p` divides it. -/
def passesTrialDivision (p : Nat) : Bool :=
  decide (2 ≤ p) && (List.range' 2 16).all fun m => decide (p < m * m) || decide (p % m ≠ 0)

/-- Below `18 * 18` trial division by the numbers up to 17 decides primality. -/
theorem passesTrialDivision_iff_prime (p : Nat) (small : p < 18 * 18) :
    passesTrialDivision p = true ↔ p.Prime := by
  have root : Nat.sqrt p < 18 := Nat.sqrt_lt.mpr small
  simp only [passesTrialDivision, Bool.and_eq_true, decide_eq_true_eq, List.all_eq_true, List.mem_range'_1,
    Bool.or_eq_true, Nat.prime_def_le_sqrt, Nat.le_sqrt, Nat.dvd_iff_mod_eq_zero]
  refine and_congr_right fun _ => ⟨fun passes m two le => ?_, fun noFactor m range => ?_⟩
  · have below : m ≤ Nat.sqrt p := Nat.le_sqrt.mpr le
    exact (passes m ⟨two, by omega⟩).resolve_left (Nat.not_lt.mpr le)
  · exact (Nat.lt_or_ge p (m * m)).imp_right (noFactor m range.1)

/-- The numbers up to 311 that pass trial division. -/
def smallPrimes : List Nat :=
  (List.range 312).filter passesTrialDivision

theorem mem_smallPrimes_iff (p : Nat) (small : p ≤ 311) : p ∈ smallPrimes ↔ p.Prime := by
  rw [smallPrimes, List.mem_filter, List.mem_range, passesTrialDivision_iff_prime p (by omega)]
  exact and_iff_right (by omega)

theorem smallPrimes_pairwise_lt : smallPrimes.Pairwise (· < ·) :=
  List.pairwise_lt_range.filter _

/-- How many of `1, 2, ..., 6` have a cube up to `p`: the whole part of the cube root of `p`, for `p < 7 ^ 3`. -/
def wholeCubeRoot (p : Nat) : Nat :=
  (List.range' 1 6).countP fun c => decide (c ^ 3 ≤ p)

/-- The integer cube root of `p * 2 ^ 96` that has `K[i]` as its low 32 bits. -/
def scaledCubeRoot (i : Fin 64) (p : Nat) : Nat :=
  wholeCubeRoot p * 2 ^ 32 + K[i].toNat

theorem scaledCubeRoot_mod (i : Fin 64) (p : Nat) : scaledCubeRoot i p % 2 ^ 32 = K[i].toNat :=
  Nat.mul_add_mod_of_lt K[i].isLt

/-- Each scaled prime lies between the cubes of its root and of the next number: the 64 entries of the table, one by one
(R146). -/
theorem scaledCubeRoot_bounds : ∀ i : Fin 64, ∀ p ∈ smallPrimes[i.val]?,
    scaledCubeRoot i p ^ 3 ≤ p * 2 ^ 96 ∧ p * 2 ^ 96 < (scaledCubeRoot i p + 1) ^ 3 := by
  decide +kernel

/-- Settles O26: the listed numbers are those that pass trial division, and each constant with the whole part of its cube
root is a cube root of the scaled prime. -/
theorem roundConstantsAreCubeRoots : Obligations.RoundConstantsAreCubeRoots := by
  unfold Obligations.RoundConstantsAreCubeRoots
  intro primes
  have listed : primes = smallPrimes := by decide +kernel
  rw [listed]
  refine ⟨by rw [← listed]; rfl, smallPrimes_pairwise_lt, mem_smallPrimes_iff, fun i hi p named => ?_⟩
  obtain ⟨lower, upper⟩ := scaledCubeRoot_bounds ⟨i, hi⟩ p named
  exact ⟨scaledCubeRoot ⟨i, hi⟩ p, lower, upper, (scaledCubeRoot_mod ⟨i, hi⟩ p).symm⟩

end Sys2Proof.Machine
end

section
/-! PROOFS. The Compression Engine (spec/43_compression.md R145 to R151): the words of one round, and the results, frames
and refusals of `CINIT`, `ROUND`, `CFIN`, `COMPRESS` and `BLOCK`. -/

namespace Sys2Proof.Machine

/-- The eight words after round `t`, each from the words before it (R145, R148). -/
theorem roundAt_words (w : Schedule) (v : Words8) (t : Nat) (inRange : t < 64) :
    let t1 := add32 [v[7], bigSigma1 v[4], choice v[4] v[5] v[6], K[t], w[t]]
    let t2 := add32 [bigSigma0 v[0], majority v[0] v[1] v[2]]
    (roundAt w v t)[0] = add32 [t1, t2] ∧ (roundAt w v t)[1] = v[0] ∧ (roundAt w v t)[2] = v[1] ∧
    (roundAt w v t)[3] = v[2] ∧ (roundAt w v t)[4] = add32 [v[3], t1] ∧ (roundAt w v t)[5] = v[4] ∧
    (roundAt w v t)[6] = v[5] ∧ (roundAt w v t)[7] = v[6] := by
  rw [roundAt_eq_mix w v t inRange]
  exact ⟨rfl, rfl, rfl, rfl, rfl, rfl, rfl, rfl⟩

/-- Settles O25: the words after each round are those of `rounds`, and `compress` adds the last of them. -/
theorem compressIsSixtyFourRounds : Obligations.CompressIsSixtyFourRounds := by
  intro w st
  refine ⟨fun t => rounds t w st, rounds_zero w st, fun t ht => ?_, fun i hi => addWords_getElem st _ i hi⟩
  simp only [rounds_succ]
  exact roundAt_words w (rounds t w st) t ht

/-- Settles O27: nothing but the flag `HV` decides, so a running compression is restarted too. -/
theorem cinitResult : Obligations.CinitResult :=
  fun s => ⟨rfl, exec_cinit_ok s, fun unset => exec_cinit_error s (by simp [unset])⟩

/-- When only the schedule word is missing, `WSTEP` supplies it and the next `ROUND` goes on (R148). -/
theorem exec_round_after_wstep (s : State) (running : s.av = true) (missing : s.t = s.wcnt)
    (inRange : 16 ≤ s.wcnt.toNat ∧ s.wcnt.toNat ≤ 63) :
    ∃ u t, exec .wstep s = .next u ∧ exec .round u = .next t ∧ t.t = s.t + 1 ∧
      t.resp = s.resp ++ [0x00, 0x00] := by
  have counted := counter_succ s.wcnt (by omega)
  have supplied : s.t.toNat < 64 ∧ s.t.toNat < (s.wcnt + 1).toNat := by rw [missing]; omega
  exact ⟨_, _, exec_wstep_ok s inRange, exec_round_ok _ ⟨running, supplied⟩, rfl, List.append_assoc _ _ _⟩

/-- Settles O28: the words by the round function, the counter without wrapping, and the refusals by the one test. -/
theorem roundResult : Obligations.RoundResult := by
  intro s
  refine ⟨rfl, ?_, fun refused => exec_round_error s ?_, fun running missing low high => ⟨?_, ?_⟩⟩
  · rintro _ unfinished rfl running available
    exact ⟨_, exec_round_ok s ⟨running, unfinished, available⟩, roundAt_words s.w s.v _ unfinished,
      counter_succ s.t unfinished, rfl, rfl, rfl, rfl, rfl, rfl, rfl, rfl, rfl⟩
  · rintro ⟨running, unfinished, available⟩
    rcases refused with stopped | done | missing
    · simp [running] at stopped
    · omega
    · omega
  · exact exec_round_error s (by simp [missing])
  · exact exec_round_after_wstep s running missing ⟨low, high⟩

/-- Settles O29: `CFIN` adds word by word exactly when all 64 rounds of a running compression are done. -/
theorem cfinResult : Obligations.CfinResult := by
  intro s
  refine ⟨rfl, fun running done => ?_, fun refused => exec_cfin_error s ?_⟩
  · exact ⟨_, exec_cfin_ok s ⟨running, done⟩, fun i hi => addWords_getElem s.h s.v i hi,
      rfl, rfl, rfl, rfl, rfl, rfl, rfl, rfl, rfl, rfl⟩
  · rintro ⟨running, done⟩
    simp [running, done] at refused

/-- `ROUND` reads neither stream (R148). -/
theorem roundOp_ignoresResponses : IgnoresResponses roundOp := by
  intro s t bytes goes
  by_cases ready : s.av = true ∧ s.t.toNat < 64 ∧ s.t.toNat < s.wcnt.toNat
  · rw [roundOp_ok s ready] at goes
    cases goes
    exact roundOp_ok (s.send bytes) ready
  · rw [roundOp_error s ready] at goes
    cases goes

/-- `CINIT`, 64 times `ROUND` and `CFIN` compress the schedule into `H`, with a response each (R150). -/
theorem execSeq_compressSteps (s : State) (seeded : s.hv = true) (full : s.wcnt.toNat = 64) :
    execSeq compressSteps s = .next (State.send (List.replicate 66 okCode)
      { s.abandon with h := compress s.w s.h, v := rounds 64 s.w s.h }) := by
  have begun := exec_cinit_ok s seeded
  have run := execSeq_replicate .round roundOp (fun _ => rfl) roundOp_ignoresResponses 64 _ _
    (repeat_roundOp (State.send [okCode] { s with v := s.h, av := true, t := 0 }) 64 (Nat.le_refl 64)
      (Nat.le_of_eq full.symm) rfl rfl)
  rw [compressSteps, execSeq_next _ _ _ _ begun, execSeq_append _ _ _ _ run,
    execSeq_next _ _ _ _ (exec_cfin_ok _ ⟨rfl, rfl⟩), execSeq_nil, compress]
  simp [State.send]

/-- Settles O30: both ways leave the same state but for the responses. -/
theorem compressResult : Obligations.CompressResult := by
  intro s
  refine ⟨rfl, fun seeded full => ?_, fun refused => exec_compress_error s ?_⟩
  · have once := exec_compress_ok s ⟨seeded, full⟩
    exact ⟨once, _, execSeq_compressSteps s seeded full, rfl, once⟩
  · rintro ⟨seeded, full⟩
    simp [seeded, full] at refused

/-- `SCHED b` and `COMPRESS` compress the block into `H`, with a response each (R151). -/
theorem execSeq_sched_compress (b : Block) (s : State) (seeded : s.hv = true) :
    execSeq [.sched b, .compress] s = .next (State.send [okCode, okCode] { s.abandon with
      w := sched b, wcnt := 64, h := compress (sched b) s.h, v := rounds 64 (sched b) s.h }) := by
  have compressed := exec_compress_ok (State.send [okCode] { s.abandon with w := sched b, wcnt := 64 }) ⟨seeded, rfl⟩
  rw [execSeq_next _ _ _ _ (exec_sched b s), execSeq_next _ _ _ _ compressed]
  simp [State.send, State.abandon]

/-- Settles O31: both ways leave the same state but for the responses; a refused `BLOCK` is fetched whole before its
test. -/
theorem blockResult : Obligations.BlockResult := by
  intro b s
  refine ⟨rfl, fun seeded => ?_, fun unset => ?_⟩
  · have once := exec_block_ok b s seeded
    exact ⟨once, _, execSeq_sched_compress b s seeded, rfl, once⟩
  · have refused : ∀ u : State, u.hv = s.hv → exec (.block b) u = .next (u.send [0x05]) :=
      fun u same => exec_block_error b u (by simp [same, unset])
    refine ⟨refused s rfl, fun rest quiet front => ?_⟩
    rw [stepRunsDecodedCommand s (.block b) rest rfl quiet front]
    exact refused { s with cmd := rest } rfl

/-- From a state whose `H` holds a value, `BLOCK` commands fold the compression over their blocks (R153). -/
theorem execSeq_blocks (bs : List Block) (s : State) (seeded : s.hv = true) :
    ∃ t, execSeq (bs.map .block) s = .next t ∧ t.hv = true ∧ t.h = chain s.h bs := by
  induction bs generalizing s with
  | nil => exact ⟨s, rfl, seeded, rfl⟩
  | cons b bs ih =>
    rw [List.map_cons, execSeq_next _ _ _ _ (exec_block_ok b s seeded)]
    exact ih _ seeded

/-- Settles O53: `INIT` and `DEC` of 32 bytes seed `H`, and the blocks fold from there. -/
theorem blocksChainTheState : Obligations.BlocksChainTheState := by
  intro bs s
  refine ⟨?_, fun d => ?_⟩
  · rw [execSeq_next _ _ _ _ (exec_init s)]
    exact execSeq_blocks bs _ rfl
  · rw [execSeq_next _ _ _ _ (exec_dec_ok d.toList s d.length_toList)]
    exact execSeq_blocks bs _ rfl

end Sys2Proof.Machine
end

section
/-! PROOFS. The digest codec is a bijection (spec/44_digest_codec.md R170, R174), and what `ENC`, `DEC` and `INIT` answer
(R171 to R173). -/

namespace Sys2Proof.Machine

/-- Words written out as four bytes each keep their places: byte `4i + j` is byte `j` of word `i`. -/
theorem flatMap_bytesBE_getElem? (xs : List Word) (i j : Nat) (hi : i < xs.length) (hj : j < 4) :
    (xs.flatMap fun x => bytesBE x.toNat 4)[4 * i + j]? = (bytesBE xs[i].toNat 4)[j]? := by
  induction xs generalizing i with
  | nil => cases hi
  | cons x xs ih =>
    cases i with
    | zero => simp [List.getElem?_append_left, hj]
    | succ i =>
      have later : 4 * (i + 1) + j - 4 = 4 * i + j := by omega
      rw [List.flatMap_cons, List.getElem?_append_right (by simp; omega), bytesBE_length, later]
      exact ih i (Nat.lt_of_succ_lt_succ hi)

/-- Byte `4i + j` of a digest is byte `j` of word `i` (R170). -/
theorem encodeDigest_getElem? (st : Words8) (i j : Nat) (hi : i < 8) (hj : j < 4) :
    (encodeDigest st)[4 * i + j]? = (bytesBE st[i].toNat 4)[j]? :=
  flatMap_bytesBE_getElem? st.toList i j (by simpa using hi) hj

/-- The bytes that `decode` reads word `i` from, by their places in the digest (R170). -/
theorem digestGroup_getElem? (d : Vector Byte 32) (i j : Nat) (hi : i < 8) (hj : j < 4) :
    [d[4 * i], d[4 * i + 1], d[4 * i + 2], d[4 * i + 3]][j]? = d.toList[4 * i + j]? := by
  have inside : 4 * i + j < d.toList.length := by rw [Vector.length_toList]; omega
  rw [List.getElem?_eq_getElem inside, Vector.getElem_toList]
  interval_cases j <;> rfl

/-- `decode(encode(S)) = S`: the four bytes read as word `i` are those it was written as (R174). -/
theorem decodeDigest_encodeDigest (st : Words8) (full : (encodeDigest st).length = 32) :
    decodeDigest ⟨⟨encodeDigest st⟩, full⟩ = st := by
  apply Vector.ext
  intro i hi
  rw [decodeDigest_getElem]
  apply be32_of_bytesBE
  apply List.ext_getElem?'
  intro j inside
  have hj : j < 4 := by simpa using inside
  rw [digestGroup_getElem? _ i j hi hj]
  exact (encodeDigest_getElem? st i j hi hj).symm

/-- `encode(decode(d)) = d`: the four bytes word `i` is written as are those it was read from (R174). -/
theorem encodeDigest_decodeDigest (d : Vector Byte 32) : encodeDigest (decodeDigest d) = d.toList := by
  apply List.ext_getElem?'
  intro n inside
  have hn : n < 32 := by simpa using inside
  have word : n / 4 < 8 := by omega
  have byte : n % 4 < 4 := by omega
  rw [← Nat.div_add_mod n 4, encodeDigest_getElem? _ _ _ word byte, decodeDigest_getElem, bytesBE_be32,
    digestGroup_getElem? d _ _ word byte]

/-- Settles O17: the two inverse laws, and the places of the bytes. -/
theorem digestCodecBijective : Obligations.DigestCodecBijective := by
  refine ⟨decodeDigest_encodeDigest, encodeDigest_decodeDigest, fun st => ⟨encodeDigest_length st, ?_⟩⟩
  intro i j hi hj
  rw [encodeDigest_getElem? st i j hi hj, bytesBE_word_getElem? st[i] j hj]

/-- Settles O34: nothing but the flag `HV` decides, and the digest is eight groups of four bytes. -/
theorem encResult : Obligations.EncResult := by
  intro s
  refine ⟨rfl, fun seeded => ?_, fun unset => exec_enc_error s (by simp [unset])⟩
  rw [exec_enc_ok s seeded, encodeDigest_eq]
  rfl

/-- Settles O35: 32 bytes are decoded into `H`; a refused `DEC` is fetched whole before its count is tested. -/
theorem decResult : Obligations.DecResult := by
  intro d s
  refine ⟨rfl, fun full => ?_, fun wrong => ⟨exec_dec_error d s wrong, ?_⟩⟩
  · exact ⟨_, exec_dec_ok d s full, decodeDigest_getElem ⟨⟨d⟩, full⟩, rfl, rfl, rfl, rfl, rfl, rfl, rfl, rfl, rfl, rfl⟩
  · intro n rest count quiet front
    have fits : d.length ≤ 255 := count ▸ Nat.le_of_lt_succ n.isLt
    have counted : BitVec.ofNat 8 d.length = n := by rw [← count, BitVec.ofNat_toNat, BitVec.setWidth_eq]
    have whole : s.cmd = encode (.dec d) ++ rest := by rw [front, ← counted]; rfl
    rw [stepRunsDecodedCommand s (.dec d) rest (by simpa [WellFormed] using fits) quiet whole]
    exact exec_dec_error d { s with cmd := rest } wrong

/-- `DEC` of the bytes of a state loads that state (R172, R174). -/
theorem exec_dec_encodeDigest (st : Words8) (s : State) :
    exec (.dec (encodeDigest st)) s = .next ((s.loadH st).send [okCode]) := by
  rw [exec_dec_ok _ s (encodeDigest_length st), decodeDigest_encodeDigest]

/-- Settles O36: the 32 bytes are those of the fixed initial state. -/
theorem initResult : Obligations.InitResult :=
  fun s => ⟨rfl, exec_init s, (exec_init s).trans (exec_dec_encodeDigest IV s).symm⟩

end Sys2Proof.Machine
end

section
/-! PROOFS. The status register and the two system commands (spec/10_state.md R30, spec/45_system.md R185, R186). -/

namespace Sys2Proof.Machine

/-- `STATUS` as a number is R30's sum, which sixteen bits hold. -/
theorem State.status_toNat (s : State) :
    s.status.toNat = s.hv.toNat * 2^15 + s.av.toNat * 2^14 + s.wcnt.toNat * 2^7 + s.t.toNat := by
  have hv := s.hv.toNat_le
  have av := s.av.toNat_le
  rw [State.status, BitVec.toNat_ofNat, Nat.mod_eq_of_lt]
  omega

/-- Bit `n` of a word is the flag whose value is digit `n` of the word as a number. -/
theorem getLsbD_eq_of_digit {w : Nat} (x : BitVec w) (n : Nat) (flag : Bool)
    (digit : x.toNat / 2 ^ n % 2 = flag.toNat) :
    x.getLsbD n = flag := by
  rw [BitVec.getLsbD, Nat.testBit_eq_decide_div_mod_eq, digit]
  cases flag <;> rfl

/-- Bit 15 of `STATUS` is `HV`: the fields below it in R30's sum stay under its weight. -/
theorem State.status_hv (s : State) : s.status.getLsbD 15 = s.hv := by
  apply getLsbD_eq_of_digit
  have hv := s.hv.toNat_le
  have av := s.av.toNat_le
  rw [s.status_toNat]
  omega

/-- Bit 14 of `STATUS` is `AV` (R30). -/
theorem State.status_av (s : State) : s.status.getLsbD 14 = s.av := by
  apply getLsbD_eq_of_digit
  have av := s.av.toNat_le
  rw [s.status_toNat]
  omega

/-- Bits 13 to 7 of `STATUS` are `WCNT` (R30). -/
theorem State.status_wcnt (s : State) : s.status.extractLsb' 7 7 = s.wcnt := by
  apply BitVec.eq_of_toNat_eq
  rw [BitVec.extractLsb'_toNat, Nat.shiftRight_eq_div_pow, s.status_toNat]
  omega

/-- Bits 6 to 0 of `STATUS` are `T` (R30). -/
theorem State.status_t (s : State) : s.status.extractLsb' 0 7 = s.t := by
  apply BitVec.eq_of_toNat_eq
  rw [BitVec.extractLsb'_toNat, Nat.shiftRight_zero, s.status_toNat]
  omega

/-- Settles O38: the answer is `STATUS` in two bytes, and each field stands at its place in R30's sum. -/
theorem statResult : Obligations.StatResult := by
  intro s
  refine ⟨rfl, ?_, s.status_hv, s.status_av, s.status_wcnt, s.status_t, s.status_toNat⟩
  rw [exec_stat, bytesBE_two]
  rfl

/-- Settles O39: `RESET` answers OK on the cleared state, whose streams are those from before it. -/
theorem resetResult : Obligations.ResetResult :=
  fun s => ⟨rfl, s.clear.send [okCode], exec_reset s, rfl, rfl, rfl, rfl, rfl, rfl, rfl⟩

end Sys2Proof.Machine
end

section
/-! PROOFS. The Block Splitter (spec/46_host_sequences.md R191): sequences of whole blocks are exactly the concatenations
of blocks, and cutting undoes concatenating. -/

namespace Sys2Proof.Machine

/-- Cutting takes a block off the front. -/
theorem cutBlocks_block_append (n : Nat) (b : Block) (rest : List Byte) :
    cutBlocks (n + 1) (b.toList ++ rest) = b :: cutBlocks n rest := by
  rw [cutBlocks, recv_append]

theorem blocks_length (bs : List Block) : (bs.flatMap Vector.toList).length = 64 * bs.length := by
  simp [List.length_flatMap, Nat.mul_comm]

/-- Cutting as many blocks as were concatenated gives them back. -/
theorem cutBlocks_blocks (bs : List Block) : cutBlocks bs.length (bs.flatMap Vector.toList) = bs := by
  induction bs with
  | nil => rfl
  | cons b bs ih => rw [List.length_cons, List.flatMap_cons, cutBlocks_block_append, ih]

/-- A sequence of whole blocks is a concatenation of blocks, by induction on their number: the first 64 bytes are the
first block. -/
theorem exists_blocks_of_length (n : Nat) (m : List Byte) (whole : m.length = 64 * n) :
    ∃ bs : List Block, bs.flatMap Vector.toList = m := by
  induction n generalizing m with
  | zero => exact ⟨[], (List.eq_nil_of_length_eq_zero whole).symm⟩
  | succ n ih =>
    obtain ⟨bs, later⟩ := ih (m.drop 64) (by rw [List.length_drop]; omega)
    have full : (m.take 64).length = 64 := by rw [List.length_take]; omega
    exact ⟨⟨⟨m.take 64⟩, full⟩ :: bs, by rw [List.flatMap_cons, later]; exact List.take_append_drop 64 m⟩

theorem exists_blocks_of_aligned (m : List Byte) (aligned : m.length % 64 = 0) :
    ∃ bs : List Block, bs.flatMap Vector.toList = m :=
  exists_blocks_of_length (m.length / 64) m (by omega)

/-- The whole blocks of a concatenation are its blocks. -/
theorem cutBlocks_div (bs : List Block) :
    cutBlocks ((bs.flatMap Vector.toList).length / 64) (bs.flatMap Vector.toList) = bs := by
  rw [blocks_length, Nat.mul_div_cancel_left _ (by decide), cutBlocks_blocks]

/-- `split` gives back the blocks of a concatenation (R191). -/
theorem split_blocks (bs : List Block) : split (bs.flatMap Vector.toList) = .ok bs := by
  rw [split, if_pos (by rw [blocks_length, Nat.mul_mod_right]), cutBlocks_div]

/-- Settles O54: a message of whole blocks is a concatenation of blocks, which `split` gives back. -/
theorem splitCutsInOrder : Obligations.SplitCutsInOrder := by
  refine fun m => ⟨fun misaligned => if_neg misaligned, fun aligned => ?_⟩
  obtain ⟨bs, rfl⟩ := exists_blocks_of_aligned m aligned
  have number := blocks_length bs
  exact ⟨bs, split_blocks bs, by omega, rfl⟩

end Sys2Proof.Machine
end

section
/-! PROOFS. `DEC` then `ENC` (spec/46_host_sequences.md R204), and the padding with its length field overridden (R194). -/

namespace Sys2Proof.Machine

/-- Settles O37: `DEC` loads the decoded digest, and encoding it again gives the digest. -/
theorem decThenEncReturnsDigest : Obligations.DecThenEncReturnsDigest := by
  intro d s full
  have encoded : encodeDigest (decodeDigest ⟨⟨d⟩, full⟩) = d := encodeDigest_decodeDigest ⟨⟨d⟩, full⟩
  have answered := exec_enc_ok ((s.loadH (decodeDigest ⟨⟨d⟩, full⟩)).send [okCode]) rfl
  rw [State.send_h, State.loadH_h, encoded] at answered
  exact ⟨_, (execSeq_next _ _ _ _ (exec_dec_ok d s full)).trans (execSeq_next _ _ _ _ answered), rfl⟩

/-- What stands before the length field of a padding: `0x80` and the zeros (R120). -/
theorem padding_take (len : Nat) :
    (padding len).take ((padding len).length - 8) = 0x80 :: List.replicate (zeroCount len) 0x00 := by
  have whole := List.take_append_drop ((padding len).length - 8) (padding len)
  rw [padding_drop] at whole
  exact List.append_cancel_right whole

/-- The zero count depends on the length modulo 64 alone (R120). -/
theorem zeroCount_congr (len₁ len₂ : Nat) (same : len₁ % 64 = len₂ % 64) : zeroCount len₁ = zeroCount len₂ := by
  rw [zeroCount, zeroCount, same]

/-- Settles O57: a padded message is whole blocks, so the suffix and the total need the same number of zeros. -/
theorem overriddenPaddingIsOrdinary : Obligations.OverriddenPaddingIsOrdinary := by
  intro len suffixLen total
  have padded : (len + (padding len).length) % 64 = 0 := padded_length_aligned len
  have zeros : zeroCount suffixLen = zeroCount total := zeroCount_congr _ _ (by omega)
  refine ⟨?_, ?_⟩
  · rw [padding_take, zeros]
    rfl
  · have aligned := padded_length_aligned total
    omega

end Sys2Proof.Machine
end

section
/-! PROOFS. What each command of a host procedure gives on an idle block, and the parts that the procedures `SHA256` and
`LENEXT` are made of (spec/46_host_sequences.md R190 to R193). -/

namespace Sys2Proof.Machine

section Sequencing
variable {α β : Type} {x : HostProc α} {s s' : State}

/-- A procedure goes on with the result of its first part, on the block as that part left it. -/
theorem bind_of_ok {a : α} (f : α → HostProc β) (ran : x s = .ok a s') : (x >>= f) s = f a s' := by
  simp only [bind, EStateM.bind, ran]

/-- A procedure ends where its first part ends without a result. -/
theorem bind_of_error {e : HostError} (f : α → HostProc β) (ran : x s = .error e s') :
    (x >>= f) s = .error e s' := by
  simp only [bind, EStateM.bind, ran]

end Sequencing

/-- A length below `2^64` fits the operand of `PAD` (R74). -/
theorem toNat_ofNat_of_fits (len : Nat) (fits : len < 2 ^ 64) : (BitVec.ofNat 64 len).toNat = len := by
  rw [BitVec.toNat_ofNat, Nat.mod_eq_of_lt fits]

section Idle
variable {s : State} (idle : s.idle = true)
include idle

/-- An idle block executes the one command it is sent (R64). -/
theorem step_hostSend_encode (i : Instr) (wf : WellFormed i = true) : step (s.hostSend (encode i)) = exec i s := by
  obtain ⟨nothing, -, quiet⟩ := (State.idle_iff s).mp idle
  have front : (s.hostSend (encode i)).cmd = encode i ++ [] := by
    rw [State.hostSend_cmd, nothing, List.nil_append, List.append_nil]
  have executed := stepRunsDecodedCommand (s.hostSend (encode i)) i [] wf quiet front
  rw [← nothing] at executed
  exact executed

/-- A command that ends OK on an idle block: the host has its data, and the block is where the command left it. -/
theorem issue_of_exec_ok (i : Instr) (s' : State) (data : List Byte) (wf : WellFormed i = true)
    (ran : exec i s = .next (s'.send (okCode :: data))) (untaken : s'.resp = s.resp)
    (length : answerLength i data = data.length) : issue i s = .ok data s' := by
  obtain ⟨-, quiet, -⟩ := (State.idle_iff s).mp idle
  exact issue_ok i s s' data idle (untaken.trans quiet) ((step_hostSend_encode idle i wf).trans ran) length

/-- A command that faults on an idle block: the host has the fault, and the block is as it was. -/
theorem issue_of_exec_fault (i : Instr) (f : FaultCode) (wf : WellFormed i = true)
    (ran : exec i s = .next (s.send [f.code])) : issue i s = .error (.condition f) s := by
  obtain ⟨-, quiet, -⟩ := (State.idle_iff s).mp idle
  exact issue_fault i s s f idle quiet ((step_hostSend_encode idle i wf).trans ran)

/-- Below `2^61` the host gets the padding of the length (R121). -/
theorem padProc_ok (len : Nat) (small : len < 2 ^ 61) : padProc len s = .ok (padding len) s := by
  have operand := toNat_ofNat_of_fits len (by omega)
  obtain ⟨padLen, -, -⟩ := padLen_toNat len
  have answered := exec_pad_ok (BitVec.ofNat 64 len) s (by omega)
  rw [operand] at answered
  have length : answerLength (.pad (BitVec.ofNat 64 len)) (BitVec.ofNat 8 (9 + zeroCount len) :: padding len) =
      (BitVec.ofNat 8 (9 + zeroCount len) :: padding len).length := by
    rw [answerLength, padLen, List.length_cons, Nat.add_comm]
  rw [padProc, if_pos (by omega), bind_of_ok _ (issue_of_exec_ok idle _ s _ rfl answered rfl length)]
  simp only [padLen, List.take_length]
  rfl

/-- From `2^61` on `PAD` faults, and from `2^64` on the host refuses the length itself (R123, R196). -/
theorem padProc_error (len : Nat) (large : 2 ^ 61 ≤ len) :
    padProc len s = .error (.condition .invalidLength) s := by
  rw [padProc]
  by_cases fits : len < 2 ^ 64
  · have operand := toNat_ofNat_of_fits len fits
    have refused := exec_pad_error (BitVec.ofNat 64 len) s (by omega)
    rw [if_pos fits, bind_of_error _ (issue_of_exec_fault idle _ _ rfl refused)]
  · rw [if_neg fits]
    rfl

/-- `DEC` of the bytes of a state loads that state (R172, R174). -/
theorem decProc_encodeDigest (st : Words8) : decProc (encodeDigest st) s = .ok () (s.loadH st) := by
  have fits : (encodeDigest st).length ≤ 255 := by rw [encodeDigest_length]; decide
  have loaded := issue_of_exec_ok idle _ _ [] (by simp [WellFormed]) (exec_dec_encodeDigest st s) rfl rfl
  rw [decProc, if_pos fits, bind_of_ok _ loaded]
  rfl

/-- A digest of the wrong length is refused, by the block or, where its count has no byte, by the host (R196). -/
theorem decProc_error (d : List Byte) (wrong : d.length ≠ 32) :
    decProc d s = .error (.condition .invalidDigestLength) s := by
  rw [decProc]
  by_cases fits : d.length ≤ 255
  · have refused := issue_of_exec_fault idle (.dec d) _ (by simpa [WellFormed] using fits) (exec_dec_error d s wrong)
    rw [if_pos fits, bind_of_error _ refused]
  · rw [if_neg fits]
    rfl

theorem issue_init : issue .init s = .ok [] (s.loadH IV) :=
  issue_of_exec_ok idle .init _ [] rfl (exec_init s) rfl rfl

/-- `BLOCK b` compresses `b` into an `H` that holds a value (R151). -/
theorem issue_block (b : Block) (seeded : s.hv = true) :
    ∃ s', issue (.block b) s = .ok [] s' ∧ s'.idle = true ∧ s'.hv = true ∧ s'.h = compress (sched b) s.h :=
  ⟨_, issue_of_exec_ok idle (.block b) _ [] rfl (exec_block_ok b s seeded) rfl rfl, idle, seeded, rfl⟩

theorem issue_enc (seeded : s.hv = true) : issue .enc s = .ok (encodeDigest s.h) s :=
  issue_of_exec_ok idle .enc s _ rfl (exec_enc_ok s seeded) rfl (encodeDigest_length s.h).symm

end Idle

/-- `split` inside a procedure leaves the block alone. -/
theorem splitProc_blocks (bs : List Block) (s : State) : splitProc (bs.flatMap Vector.toList) s = .ok bs s := by
  rw [splitProc, split_blocks]

/-- From an idle block whose `H` holds a value, issuing `BLOCK` commands folds the compression over their blocks
(R153). -/
theorem issueAll_blocks (bs : List Block) (s : State) (idle : s.idle = true) (seeded : s.hv = true) :
    ∃ s', issueAll (bs.map .block) s = .ok () s' ∧ s'.idle = true ∧ s'.hv = true ∧ s'.h = chain s.h bs := by
  induction bs generalizing s with
  | nil => exact ⟨s, rfl, idle, seeded, rfl⟩
  | cons b bs ih =>
    obtain ⟨s₁, first, idle₁, seeded₁, words₁⟩ := issue_block idle b seeded
    obtain ⟨s', later, idle', seeded', words'⟩ := ih s₁ idle₁ seeded₁
    rw [words₁] at words'
    exact ⟨s', (bind_of_ok _ first).trans later, idle', seeded', words'⟩

/-- The last part of both procedures: the blocks, then `ENC` of the state they lead to. -/
theorem issueAll_blocks_enc {α : Type} (bs : List Block) (s : State) (idle : s.idle = true) (seeded : s.hv = true)
    (result : List Byte → HostProc α) : ∃ s', s'.idle = true ∧
      (do issueAll (bs.map .block); let digest ← issue .enc; result digest) s =
        result (encodeDigest (chain s.h bs)) s' := by
  obtain ⟨s', absorbed, idle', seeded', words⟩ := issueAll_blocks bs s idle seeded
  refine ⟨s', idle', ?_⟩
  rw [bind_of_ok _ absorbed, bind_of_ok _ (issue_enc idle' seeded'), words]

end Sys2Proof.Machine
end

section
/-! PROOFS. The procedure `SHA256` computes the pure hash (spec/46_host_sequences.md R190, R192, R198, R200), and the hash's
known answers (R199). -/

namespace Sys2Proof.Machine

/-- The hash is the encoded fold over the blocks of the padded message, whatever way they are given (R192). -/
theorem sha256_of_blocks (m : List Byte) (bs : List Block) (padded : bs.flatMap Vector.toList = m ++ padding m.length) :
    sha256 m = encodeDigest (chain IV bs) := by
  simp only [sha256, ← padded, cutBlocks_div]

/-- A padded message is whole blocks (R122). -/
theorem exists_blocks_of_padded (m : List Byte) :
    ∃ bs : List Block, bs.flatMap Vector.toList = m ++ padding m.length :=
  exists_blocks_of_aligned _ (by rw [List.length_append]; exact padded_length_aligned m.length)

/-- The number of blocks of a padded message (R192). -/
theorem padded_block_count (m : List Byte) : (m ++ padding m.length).length / 64 =
    if m.length % 64 ≤ 55 then m.length / 64 + 1 else m.length / 64 + 2 := by
  rw [List.length_append, padding_length, zeroCount_eq]
  split <;> omega

theorem sha256_length (m : List Byte) : (sha256 m).length = 32 := encodeDigest_length _

/-- On an idle block the procedure returns the hash and leaves the block idle (R192, R198). -/
theorem sha256Proc_ok (m : List Byte) (s : State) (idle : s.idle = true) (small : m.length < 2 ^ 61) :
    ∃ s', sha256Proc m s = .ok (sha256 m) s' ∧ s'.idle = true := by
  obtain ⟨bs, padded⟩ := exists_blocks_of_padded m
  obtain ⟨s', idle', absorbed⟩ := issueAll_blocks_enc bs (s.loadH IV) idle rfl pure
  rw [bind_pure, State.loadH_h, ← sha256_of_blocks m bs padded] at absorbed
  refine ⟨s', ?_, idle'⟩
  rw [sha256Proc, bind_of_ok _ (padProc_ok idle _ small), ← padded, bind_of_ok _ (splitProc_blocks bs s),
    bind_of_ok _ (issue_init idle)]
  exact absorbed

/-- On a block that is not idle the procedure sends nothing (log entry 14). -/
theorem sha256Proc_busy (m : List Byte) (s : State) (busy : s.idle = false) (fits : m.length < 2 ^ 64) :
    sha256Proc m s = .error .noResponse s := by
  have unsent : padProc m.length s = .error .noResponse s := by
    rw [padProc, if_pos fits, bind_of_error _ (issue_busy _ s busy)]
  rw [sha256Proc, bind_of_error _ unsent]

/-- Settles O55: with an idle block the procedure is the hash or fails at its padding, and with any other it fails at its
first command. -/
theorem sha256ProcedureReturnsHash : Obligations.Sha256ProcedureReturnsHash := by
  refine ⟨sha256Proc_busy, fun m s idle => ⟨fun small => ?_, fun large => ?_⟩⟩
  · obtain ⟨s', returned, idle'⟩ := sha256Proc_ok m s idle small
    exact ⟨s', returned, sha256_length m, idle', padded_block_count m⟩
  · exact ⟨s, bind_of_error _ (padProc_error idle _ large)⟩

/-- Settles O56: both hashes are computed in the kernel, which evaluates the whole fold. -/
theorem knownAnswers : Obligations.KnownAnswers :=
  ⟨by decide +kernel, by decide +kernel⟩

end Sys2Proof.Machine
end

section
/-! PROOFS. The procedure `LENEXT` (spec/46_host_sequences.md R193, R196, R203). -/

namespace Sys2Proof.Machine

/-- A length that does not fit the 64-bit operand is refused by the host, whatever else is wrong (R196). -/
theorem lenextProc_of_unfit (d suffix : List Byte) (len : Int) (s : State) (unfit : len < 0 ∨ len ≥ 2 ^ 64) :
    lenextProc d len suffix s = .error (.condition .invalidLength) s := by
  rw [lenextProc, if_pos unfit]
  rfl

/-- The steps of `LENEXT` after the padding of the message is known to be `p0` (R193). -/
def lenextFrom (d : List Byte) (len : Nat) (suffix p0 : List Byte) : HostProc (List Byte × List Byte) := do
  let p1 ← padProc (len + p0.length + suffix.length)
  decProc d
  let bs ← splitProc (suffix ++ p1)
  issueAll (bs.map .block)
  let newDigest ← issue .enc
  pure (p0 ++ suffix, newDigest)

/-- `LENEXT` of a length that fits asks for its padding first (R193). -/
theorem lenextProc_of_fit (d suffix : List Byte) (len : Nat) (fits : len < 2 ^ 64) :
    lenextProc d len suffix = padProc len >>= lenextFrom d len suffix := by
  rw [lenextProc, if_neg (by omega)]
  rfl

section Idle
variable (d suffix : List Byte) {len : Nat} {s : State} (idle : s.idle = true) (small : len < 2 ^ 61)
include idle small

/-- A total of `2^61` or more is InvalidLength, before the digest is looked at (R196). -/
theorem lenextProc_of_large_total (large : 2 ^ 61 ≤ len + (padding len).length + suffix.length) :
    lenextProc d len suffix s = .error (.condition .invalidLength) s := by
  rw [lenextProc_of_fit d suffix len (by omega), bind_of_ok _ (padProc_ok idle len small)]
  exact bind_of_error _ (padProc_error idle _ large)

/-- With both lengths below `2^61`, a digest of the wrong length is InvalidDigestLength (R196). -/
theorem lenextProc_of_wrong_digest (total : len + (padding len).length + suffix.length < 2 ^ 61)
    (wrong : d.length ≠ 32) : lenextProc d len suffix s = .error (.condition .invalidDigestLength) s := by
  rw [lenextProc_of_fit d suffix len (by omega), bind_of_ok _ (padProc_ok idle len small), lenextFrom,
    bind_of_ok _ (padProc_ok idle _ total), bind_of_error _ (decProc_error idle d wrong)]

/-- From the bytes of a state, `LENEXT` folds the blocks of the suffix and its overridden padding into that state
(R193). -/
theorem lenextProc_encodeDigest (st : Words8) (bs : List Block)
    (total : len + (padding len).length + suffix.length < 2 ^ 61)
    (padded : bs.flatMap Vector.toList = suffix ++ padding (len + (padding len).length + suffix.length)) :
    ∃ s', lenextProc (encodeDigest st) len suffix s = .ok (padding len ++ suffix, encodeDigest (chain st bs)) s' := by
  obtain ⟨s', -, absorbed⟩ := issueAll_blocks_enc bs (s.loadH st) idle rfl fun newDigest =>
    pure (padding len ++ suffix, newDigest)
  refine ⟨s', ?_⟩
  rw [lenextProc_of_fit _ suffix len (by omega), bind_of_ok _ (padProc_ok idle len small), lenextFrom,
    bind_of_ok _ (padProc_ok idle _ total), bind_of_ok _ (decProc_encodeDigest idle st), ← padded,
    bind_of_ok _ (splitProc_blocks bs _)]
  exact absorbed

end Idle

/-- Settles O58: the digest of `m` is the state after the blocks `bs` of `m` and its padding, the suffix and its overridden
padding are the blocks `cs`, and `bs ++ cs` are the blocks of the long message and its padding. -/
theorem lengthExtensionMatchesHash : Obligations.LengthExtensionMatchesHash := by
  intro m suffix s idle total
  obtain ⟨bs, blocks_m⟩ := exists_blocks_of_padded m
  obtain ⟨-, aligned⟩ := overriddenPaddingIsOrdinary m.length suffix.length
  obtain ⟨cs, blocks_suffix⟩ := exists_blocks_of_aligned _ (List.length_append ▸ aligned)
  have length : (m ++ padding m.length ++ suffix).length =
      m.length + (padding m.length).length + suffix.length := by
    rw [List.length_append, List.length_append]
  have blocks_long : (bs ++ cs).flatMap Vector.toList =
      m ++ padding m.length ++ suffix ++ padding (m ++ padding m.length ++ suffix).length := by
    rw [length, List.flatMap_append, blocks_m, blocks_suffix, ← List.append_assoc]
  obtain ⟨s', extended⟩ := lenextProc_encodeDigest suffix idle (by omega) (chain IV bs) cs total blocks_suffix
  refine ⟨s', ?_⟩
  rw [sha256_of_blocks m bs blocks_m, sha256_of_blocks _ _ blocks_long, extended, chain, chain, chain,
    List.foldl_append]

/-- Settles O59: the host or the first `PAD` refuses the length, the second `PAD` the total, and `DEC` the digest. -/
theorem lengthExtensionErrors : Obligations.LengthExtensionErrors := by
  refine fun d suffix s idle => ⟨fun len bad => ⟨s, ?_⟩, fun len small => ⟨fun large => ?_, fun total wrong => ?_⟩⟩
  · by_cases unfit : len < 0 ∨ len ≥ 2 ^ 64
    · exact lenextProc_of_unfit d suffix len s unfit
    · obtain ⟨n, rfl⟩ := Int.eq_ofNat_of_zero_le (show 0 ≤ len by omega)
      rw [lenextProc_of_fit d suffix n (by omega)]
      exact bind_of_error _ (padProc_error idle n (by omega))
  · exact ⟨s, lenextProc_of_large_total d suffix idle small large⟩
  · exact ⟨s, lenextProc_of_wrong_digest d suffix idle small total wrong⟩

end Sys2Proof.Machine
end

section
/-! PROOFS. Faults (spec/60_exceptions.md R221, R223, R224, R226, R227): when each command raises the one of its row,
and that a raised fault changes nothing but the two streams. -/

namespace Sys2Proof.Machine

/-- A command has one answer: the bytes its outcome is known to send are the bytes it appends to the responses. -/
theorem answer_unique {i : Instr} {s u t : State} {bytes answer : List Byte} (goes : exec i s = .next (u.send bytes))
    (untaken : u.resp = s.resp) (ran : exec i s = .next t) (answered : t.resp = s.resp ++ answer) :
    bytes = answer := by
  obtain rfl := Host.Outcome.next.inj (goes.symm.trans ran)
  rwa [State.send_resp, untaken, List.append_cancel_left_eq] at answered

/-- An answer that opens with OK is not a fault's answer (R80, R81). -/
theorem not_raised_of_ok {i : Instr} {s s' : State} {data : List Byte}
    (ran : exec i s = .next (s'.send (okCode :: data))) (untaken : s'.resp = s.resp) (f : FaultCode) :
    exec i s ≠ .next (s.send [f.code]) := by
  intro raised
  have same : okCode :: data = [f.code] := answer_unique ran untaken raised rfl
  exact f.code_ne_ok (List.head_eq_of_cons_eq same).symm

/-- A command raises its fault exactly when its test fails. -/
theorem raises_iff_not_test {i : Instr} {s : State} {f : FaultCode} {test : Prop}
    (ok : test → ∃ (s' : State) (data : List Byte), exec i s = .next (s'.send (okCode :: data)) ∧ s'.resp = s.resp)
    (error : ¬test → exec i s = .next (s.send [f.code])) : exec i s = .next (s.send [f.code]) ↔ ¬test := by
  refine ⟨fun raised passed => ?_, error⟩
  obtain ⟨s', data, ran, untaken⟩ := ok passed
  exact not_raised_of_ok ran untaken f raised

/-- A command that answers OK has passed its test. -/
theorem test_of_ok {i : Instr} {s t : State} {f : FaultCode} {data : List Byte} {test : Prop}
    (error : ¬test → exec i s = .next (s.send [f.code])) (ran : exec i s = .next t)
    (answered : t.resp = s.resp ++ okCode :: data) : test := by
  by_contra failed
  have same : [f.code] = okCode :: data := answer_unique (error failed) rfl ran answered
  exact f.code_ne_ok (List.head_eq_of_cons_eq same)

/-- A command raises no fault but the one of its row (R227). -/
theorem faultColumn_of_raised {i : Instr} {s : State} {f : FaultCode} (raised : exec i s = .next (s.send [f.code])) :
    faultColumn i = some f := by
  rcases exec_form i s with ⟨s', data, ran, untaken, -⟩ | ⟨g, row, ran⟩
  · exact absurd raised (not_raised_of_ok ran untaken f)
  · have same : [g.code] = [f.code] := answer_unique ran rfl raised rfl
    rw [row, FaultCode.code_injective g f (List.head_eq_of_cons_eq same)]

/-- A command raises SequenceError exactly in the cases of R226's table: each test against its row, where the invariants
bound the two counters. -/
theorem raises_sequenceError_iff (last : Option Block) (s : State) (i : Instr) (inv : s.Inv last) :
    exec i s = .next (s.send [FaultCode.sequenceError.code]) ↔ sequenceCause i s := by
  cases i with
  | wstep =>
    have bound : s.wcnt.toNat ≤ 64 := by have := inv.wcnt_legal; omega
    rw [raises_iff_not_test (fun h => ⟨_, _, exec_wstep_ok s h, rfl⟩) (exec_wstep_error s), sequenceCause]
    omega
  | cinit =>
    rw [raises_iff_not_test (fun h => ⟨_, _, exec_cinit_ok s h, rfl⟩) (exec_cinit_error s), sequenceCause,
      Bool.not_eq_true]
  | round =>
    have bound := inv.t_le_64
    rw [raises_iff_not_test (fun h => ⟨_, _, exec_round_ok s h, rfl⟩) (exec_round_error s), sequenceCause,
      not_and_or, Bool.not_eq_true]
    exact or_congr_right (by omega)
  | cfin =>
    rw [raises_iff_not_test (fun h => ⟨_, _, exec_cfin_ok s h, rfl⟩) (exec_cfin_error s), sequenceCause,
      not_and_or, Bool.not_eq_true]
  | compress =>
    rw [raises_iff_not_test (fun h => ⟨_, _, exec_compress_ok s h, rfl⟩) (exec_compress_error s), sequenceCause,
      not_and_or, Bool.not_eq_true]
  | block b =>
    rw [raises_iff_not_test (fun h => ⟨_, _, exec_block_ok b s h, rfl⟩) (exec_block_error b s), sequenceCause,
      Bool.not_eq_true]
  | enc =>
    rw [raises_iff_not_test (fun h => ⟨_, _, exec_enc_ok s h, rfl⟩) (exec_enc_error s), sequenceCause,
      Bool.not_eq_true]
  | pad | ldblk | sched | dec | init | stat | reset =>
    exact iff_of_false (fun raised => nomatch faultColumn_of_raised raised) id

/-- Settles O41: SequenceError's answer is the code 0x05 on the state from before. -/
theorem sequenceErrorExactly : Obligations.SequenceErrorExactly :=
  raises_sequenceError_iff

/-- Settles O42: the one form of every meaning, and the two tests that read the operand alone. -/
theorem faultsPerCommand : Obligations.FaultsPerCommand := by
  refine ⟨fun i s => ?_, fun l s => ?_, fun d s => ?_⟩
  · rcases exec_form i s with ⟨s', data, ran, untaken, -⟩ | raised
    · exact .inl ⟨s', data, ran, untaken⟩
    · exact .inr raised
  · exact (raises_iff_not_test (fun h => ⟨_, _, exec_pad_ok l s h, rfl⟩) (exec_pad_error l s)).trans Nat.not_lt
  · exact raises_iff_not_test (fun h => ⟨_, _, exec_dec_ok d s h, rfl⟩) (exec_dec_error d s)

/-- Settles O43: the step is the command's meaning on the state without its bytes, whose one form leaves only a fault's
answer to open with a status other than OK. -/
theorem faultChangesNothing : Obligations.FaultChangesNothing := by
  intro s t i rest status data wf quiet front ran answered fault
  rw [stepRunsDecodedCommand s i rest wf quiet front] at ran
  rcases exec_form i { s with cmd := rest } with ⟨s', data', goes, untaken, -⟩ | ⟨f, -, goes⟩
  · have same : okCode :: data' = status :: data := answer_unique goes untaken ran answered
    exact absurd (List.head_eq_of_cons_eq same).symm fault
  · have same : [f.code] = status :: data := answer_unique goes rfl ran answered
    obtain ⟨rfl, rfl⟩ := List.cons_eq_cons.mp same
    exact ⟨rfl, Host.Outcome.next.inj (ran.symm.trans goes)⟩

end Sys2Proof.Machine
end

section
/-! PROOFS. Reset and hazards (spec/70_reset_and_hazards.md R250, R253, R256): what a hardware reset leaves, what only a
reset invalidates, and which commands abandon a compression in progress. -/

namespace Sys2Proof.Machine

/-- Settles O10: the pending reset is taken first, and on its empty command stream the next bytes are the host's. -/
theorem hardwareResetDiscardsStreams : Obligations.HardwareResetDiscardsStreams := by
  intro s
  refine ⟨_, step_of_pending s.assertReset rfl, s.assertReset.hardwareReset_isReset, rfl, rfl, rfl, ?_⟩
  intro i rest wf
  exact stepRunsDecodedCommand (s.assertReset.hardwareReset.hostSend (encode i ++ rest)) i rest wf rfl rfl

/-- Without a compression in progress there is no round to apply and no result to add (R148, R149). -/
theorem compression_refused (s : State) (stopped : s.av = false) :
    exec .round s = .next (s.send [FaultCode.sequenceError.code]) ∧
      exec .cfin s = .next (s.send [FaultCode.sequenceError.code]) :=
  ⟨exec_round_error s (by simp [stopped]), exec_cfin_error s (by simp [stopped])⟩

/-- An OK answer to a command that rewrites `H` or the block comes with the compression abandoned (R256). -/
theorem abandoned_of_ok (i : Instr) (s t : State)
    (reloads : i = .init ∨ i = .compress ∨ (∃ d, i = .dec d) ∨ ∃ b, i = .ldblk b ∨ i = .sched b ∨ i = .block b)
    (ran : exec i s = .next t) (answered : t.resp = s.resp ++ [okCode]) : t.av = false ∧ t.t = 0 := by
  rcases reloads with rfl | rfl | ⟨d, rfl⟩ | ⟨b, rfl | rfl | rfl⟩
  · cases (exec_init s).symm.trans ran
    exact ⟨rfl, rfl⟩
  · cases (exec_compress_ok s (test_of_ok (exec_compress_error s) ran answered)).symm.trans ran
    exact ⟨rfl, rfl⟩
  · have full := test_of_ok (exec_dec_error d s) ran answered
    obtain rfl := Host.Outcome.next.inj ((exec_dec_ok d s full).symm.trans ran)
    exact ⟨rfl, rfl⟩
  · cases (exec_ldblk b s).symm.trans ran
    exact ⟨rfl, rfl⟩
  · cases (exec_sched b s).symm.trans ran
    exact ⟨rfl, rfl⟩
  · cases (exec_block_ok b s (test_of_ok (exec_block_error b s) ran answered)).symm.trans ran
    exact ⟨rfl, rfl⟩

/-- `WSTEP` writes at most the word `WCNT` names, which no round has read yet, since `T <= WCNT` (R31 (c), R256). -/
theorem wstep_keeps_compression (last : Option Block) (s t : State) (inv : s.Inv last)
    (ran : exec .wstep s = .next t) : t.h = s.h ∧ t.v = s.v ∧ t.av = s.av ∧ t.t = s.t ∧
      ∀ (i : Nat) (_ : i < 64), i < s.t.toNat → t.w[i] = s.w[i] := by
  have read := inv.t_le_wcnt
  by_cases ready : 16 ≤ s.wcnt.toNat ∧ s.wcnt.toNat ≤ 63
  · cases (exec_wstep_ok s ready).symm.trans ran
    exact ⟨rfl, rfl, rfl, rfl, fun i hi below => schedStep_other s.w _ i hi (by omega)⟩
  · cases (exec_wstep_error s ready).symm.trans ran
    exact ⟨rfl, rfl, rfl, rfl, fun _ _ _ => rfl⟩

/-- Settles O33: a reloading command leaves no compression to go on with, and `WSTEP` leaves it alone. -/
theorem reloadingAbandonsCompression : Obligations.ReloadingAbandonsCompression := by
  refine ⟨fun i s t reloads ran answered => ?_, wstep_keeps_compression⟩
  obtain ⟨stopped, start⟩ := abandoned_of_ok i s t reloads ran answered
  exact ⟨stopped, start, compression_refused t stopped⟩

/-- A counter that has not reached 64 does not wrap to 0. -/
theorem counter_succ_ne_zero (c : BitVec 7) (small : c.toNat < 64) : c + 1 ≠ 0 := by
  intro wrapped
  have counted := counter_succ c small
  rw [wrapped] at counted
  simp at counted

/-- `H` still holds a value where it did, and so does the schedule store (R27, R24). -/
def State.StillValid (s t : State) : Prop :=
  (s.hv = true → t.hv = true) ∧ (s.wcnt ≠ 0 → t.wcnt ≠ 0)

/-- Every command but `RESET` keeps what is valid (R253): a fault changes nothing, and no effect clears `HV` or counts
`WCNT` to 0. -/
theorem exec_stillValid (i : Instr) (s t : State) (other : i ≠ .reset) (ran : exec i s = .next t) :
    s.StillValid t := by
  rcases exec_form i s with ⟨s', data, goes, untaken, -⟩ | ⟨f, -, raised⟩
  · have answered : t.resp = s.resp ++ okCode :: data := by
      cases goes.symm.trans ran
      rw [State.send_resp, untaken]
    suffices valid : ∃ u, exec i s = .next u ∧ s.StillValid u by
      obtain ⟨u, same, kept⟩ := valid
      cases same.symm.trans ran
      exact kept
    cases i with
    | pad l => exact ⟨_, exec_pad_ok l s (test_of_ok (exec_pad_error l s) ran answered), id, id⟩
    | ldblk b => exact ⟨_, exec_ldblk b s, id, fun _ => by simp⟩
    | wstep =>
      have ready := test_of_ok (exec_wstep_error s) ran answered
      exact ⟨_, exec_wstep_ok s ready, id, fun _ => counter_succ_ne_zero s.wcnt (by omega)⟩
    | sched b => exact ⟨_, exec_sched b s, id, fun _ => by simp⟩
    | cinit => exact ⟨_, exec_cinit_ok s (test_of_ok (exec_cinit_error s) ran answered), id, id⟩
    | round => exact ⟨_, exec_round_ok s (test_of_ok (exec_round_error s) ran answered), id, id⟩
    | cfin => exact ⟨_, exec_cfin_ok s (test_of_ok (exec_cfin_error s) ran answered), id, id⟩
    | compress => exact ⟨_, exec_compress_ok s (test_of_ok (exec_compress_error s) ran answered), id, id⟩
    | block b =>
      exact ⟨_, exec_block_ok b s (test_of_ok (exec_block_error b s) ran answered), id, fun _ => by simp⟩
    | enc => exact ⟨_, exec_enc_ok s (test_of_ok (exec_enc_error s) ran answered), id, id⟩
    | dec d => exact ⟨_, exec_dec_ok d s (test_of_ok (exec_dec_error d s) ran answered), fun _ => rfl, id⟩
    | init => exact ⟨_, exec_init s, fun _ => rfl, id⟩
    | stat => exact ⟨_, exec_stat s, id, id⟩
    | reset => exact absurd rfl other
  · cases raised.symm.trans ran
    exact ⟨id, id⟩

/-- A step that neither takes a hardware reset nor runs `RESET` keeps what is valid (R253). -/
theorem step_stillValid (s t : State) (quiet : s.resetPending = false)
    (other : ∀ rest, decode s.cmd ≠ .command .reset rest) (ran : step s = .next t) : s.StillValid t := by
  cases found : decode s.cmd with
  | command i rest =>
    rw [step_of_decode_command s i rest quiet found] at ran
    exact exec_stillValid i { s with cmd := rest } t (fun same => other rest (same ▸ found)) ran
  | illegal op rest =>
    cases (step_of_decode_illegal s op rest quiet found).symm.trans ran
    exact ⟨id, id⟩
  | noOpcode => cases (step_of_fetch_waiting s _ (fetch_of_decode_noOpcode s quiet found)).symm.trans ran
  | truncated => cases (step_of_fetch_waiting s _ (fetch_of_decode_truncated s quiet found)).symm.trans ran

/-- Settles O45: without either reset the step would have kept both valid. -/
theorem onlyResetInvalidates : Obligations.OnlyResetInvalidates := by
  intro s t ran invalidated
  by_contra noReset
  obtain ⟨quiet, other⟩ := not_or.mp noReset
  obtain ⟨hv, wcnt⟩ := step_stillValid s t (Bool.eq_false_of_not_eq_true quiet) (not_exists.mp other) ran
  rcases invalidated with ⟨valid, lost⟩ | ⟨filled, emptied⟩
  · simp [hv valid] at lost
  · exact wcnt filled emptied

/-- Settles O50: by the invariants the schedule of a block is whole when 64 rounds are done, so a block is loaded, and
what `CFIN` adds is its compression. -/
theorem cfinCompressesTheLoadedBlock : Obligations.CfinCompressesTheLoadedBlock := by
  intro last s reach running done
  have inv := reachableStatesMeetInvariants last s reach
  have whole := inv.t_le_wcnt
  obtain ⟨b, rfl, -⟩ := inv.block_words (by omega)
  refine ⟨b, rfl, ?_⟩
  rw [exec_cfin_ok s ⟨running, done⟩, inv.addWords_eq_compress done]
  rfl

end Sys2Proof.Machine
end
